-- ==== Sys2Proof/Word.lean ====
section
/-! DEFINITION. The block's vocabulary of values: bytes, byte sequences, keys, unique ids, device
handles and texts (spec/00_scope.md R6, R8 to R11, R14, R15). -/

namespace Sys2Proof

/-- A byte: 8 bits, bit 0 the least significant (R8). -/
abbrev Byte := BitVec 8

/-- A finite sequence of bytes; index 0 is the first byte on the wire (R10, R31). -/
abbrev Bytes := List Byte

/-- A registry slot index 0..15, equal to a polling address (R6 `NUM_KEYS`, R36(a)). -/
abbrev Key := Fin 16

/-- A 5-byte unique id (R6 `UID_LEN`): byte 0 manufacturer id, byte 1 device type, bytes 2 to 4 the
serial number (R33). -/
abbrev UniqueId := Vector Byte 5

/-- The text of a summary field; the source gives no format (R96; log entry 18). -/
abbrev Text := String

/-- The opaque handle that names a device agent (R15). The number is the model's way to tell
handles apart; no operation computes with it (log entry 20). -/
structure DevId where
  handle : Nat
deriving DecidableEq, Repr, Inhabited

end Sys2Proof
end

