-- ==== Sys2Proof/Config.lean ====
section
/-! DEFINITION. What the source fixes (R6), the model parameters (R7), and the free values: what the
spec leaves open and the model takes as unconstrained (spec/93_implementation_defined.md). -/

namespace Sys2Proof

/-- How a long frame is routed: by the caller's hint (R87) or by a unique-id directory (R88). -/
inductive LongRoute where
  | hint
  | directory
deriving DecidableEq, Repr

/-- The model parameters of R7 that a rule reads. They are named arguments of the model, so State
carries them and no operation writes them (log entry 8). -/
structure Params where
  /-- `LONG_ROUTE` (R87, R88). -/
  longRoute : LongRoute
  /-- `BUILD_FALLBACK_SHORT` (R82). -/
  buildFallbackShort : Bool
  /-- `RESET_PRE`, 3..7 (R119). -/
  resetPre : BitVec 3
  /-- `RESET_FMT`: 0 short, 1 long (R119). -/
  resetFmt : BitVec 1
deriving DecidableEq, Repr

/-- What a device shows at the device port: the fields `summary()` returns (R96) and the device's own
polling address, "always masked to 4 bits" (R97, R101). This is the device's state, not the
block's (R29). -/
structure DeviceView where
  pollingAddress : Key
  uniqueId : UniqueId
  serialHex : Text
  model : Text
  manufacturer : Text
  /-- Does a `summary` call on the device return? A conforming device's does (R118, U6; log entry 7). -/
  summaryReturns : Bool
deriving DecidableEq, Repr, Inhabited

/-- What one call `dev.handle(req)` that returns brings back: the reply bytes (R95) and what the device shows
afterwards, since it "may read and change its own state during the call" (R95). -/
structure HandleResult where
  reply : Bytes
  after : DeviceView
deriving DecidableEq, Repr, Inhabited

/-- How a `dev.handle` call ends: it returns, or it never does, which no conforming device does and which
leaves the block stuck (R118, U6; log entry 7). -/
inductive HandleOutcome where
  | returns (result : HandleResult)
  | never
deriving DecidableEq, Repr, Inhabited

/-- `PRE_MIN` (R6). -/
def Config.preMin : Int := 3

/-- `PRE_MAX` (R6). -/
def Config.preMax : Int := 7

/-- `PREAMBLE_BYTE` (R6). -/
def Config.preambleByte : Byte := 0xFF#8

/-- `MAX_DATA_LEN` (R6): the byte count is one byte. -/
def Config.maxDataLen : Nat := 255

/-- The values the spec takes for its parameters (R7; decisions D13, D14, D16, D17). -/
def Config.specParams : Params where
  longRoute := .hint
  buildFallbackShort := false
  resetPre := 5#3
  resetFmt := 0#1

/-- `BUS_DELAY` (R7, R131): OPEN in the spec and timing only; no rule reads it (log entry 14). -/
opaque Config.busDelay : Nat

/-- `PREAMBLE_BOUND` (R7, R27): OPEN in the spec; no rule reads it (log entry 14). -/
opaque Config.preambleBound : Nat

/-- FREE VALUE: how the `n`-th `handle` call for which the outside supplied nothing ends
(U1, U6, U8, U18; R95, R104; log entries 5 and 7). -/
opaque Config.freeHandleOutcome : Nat → HandleOutcome

/-- FREE VALUE: what a device shows before anything was said of it (U2, U17; log entry 6). -/
opaque Config.freeView : DevId → DeviceView

end Sys2Proof
end

