-- ==== Sys2Proof/Syntax.lean ====
section
/-! DEFINITION. The operations of spec/opcode_table.json as one inductive, the words that carry them
(a command-port request, R55, or a wire frame, R43), and the record DECODE gives (R14). -/

namespace Sys2Proof

/-- The result record of DECODE (R14). -/
structure ParsedFrame where
  preambles : Nat
  start : Byte
  address : Bytes
  command : Byte
  byteCount : Byte
  data : Bytes
  rxChecksum : Byte
  csumOk : Bool
deriving DecidableEq, Repr

/-- The source's ParsedRequest, which `dev.handle` receives: the first six fields (R14, R89). -/
structure ParsedRequest where
  preambles : Nat
  start : Byte
  address : Bytes
  command : Byte
  byteCount : Byte
  data : Bytes
deriving DecidableEq, Repr

/-- The result record of DECODE_RSP (R14, R76). -/
structure ParsedResponse where
  frame : ParsedFrame
  status1 : Option Byte
  status2 : Option Byte
  payload : Option Bytes
deriving DecidableEq, Repr

/-- The fields of a wire frame beside its start delimiter and byte count (R43 to R45). `trailing`
holds the bytes after the checksum, which are not part of the frame (R54, R75). -/
structure WireFrame where
  preambles : Nat
  address : Bytes
  command : Byte
  data : Bytes
  checksum : Byte
  trailing : Bytes
deriving DecidableEq, Repr

/-- One operation. One constructor for each row of spec/opcode_table.json; operand types are those
of R61. A format bit is 0 for short, 1 for long (R78). -/
inductive Instr where
  /-- CSUM, op 0x1 (R64). -/
  | csum (s : Bytes)
  /-- PREAMBLE, op 0x2 (R65). -/
  | preamble (n : Nat)
  /-- SADDR, op 0x3 (R66). -/
  | saddr (n : Int)
  /-- LADDR, op 0x4 (R67). -/
  | laddr (u : Bytes)
  /-- ENCODE, op 0x5 (R68). -/
  | encode (p : Nat) (start : Int) (address : Bytes) (command : Int) (data : Bytes)
  /-- DECODE, op 0x6 (R70). -/
  | decode (raw : Bytes)
  /-- DECODE_RSP, op 0x7 (R76). -/
  | decodeRsp (raw : Bytes)
  /-- CFGW, op 0x8 (R78). -/
  | cfgw (fmt : BitVec 1) (n : Int)
  /-- CFGR, op 0x9 (R79). -/
  | cfgr
  /-- BUILD, op 0xA (R80). -/
  | build (address : Int) (command : Int) (data : Bytes)
  /-- REGISTER, op 0xB (R83). -/
  | register (address : Int) (dev : DevId)
  /-- MOVE, op 0xC (R84). -/
  | move (old : Int) (new : Int)
  /-- SCAN, op 0xD (R85). -/
  | scan
  /-- TRANSACT, op 0xE (R89). -/
  | transact (frame : Bytes) (hint : Option Int)
  /-- The reserved op 0x0 (R109). -/
  | reserved0
  /-- The reserved op 0xF (R109). -/
  | reservedF
  /-- A wire frame with start 0x02 (R46), with the routing hint that goes beside it (R87). -/
  | frameShortReq (f : WireFrame) (hint : Option Int)
  /-- A wire frame with start 0x06 (R46). -/
  | frameShortRsp (f : WireFrame) (hint : Option Int)
  /-- A wire frame with start 0x82 (R46). -/
  | frameLongReq (f : WireFrame) (hint : Option Int)
  /-- A wire frame with start 0x86 (R46). -/
  | frameLongRsp (f : WireFrame) (hint : Option Int)
deriving DecidableEq, Repr

/-- One typed operand value of the command port: "the port carries typed values, not a packed word"
(R55); the types are those of R61. -/
inductive Arg where
  | bytes (s : Bytes)
  | nat (n : Nat)
  | int (n : Int)
  | bit (b : BitVec 1)
  | dev (d : DevId)
  | optInt (n : Option Int)
deriving DecidableEq, Repr

/-- What carries one operation to the block: a command-port request, which is a 4-bit op code and
typed operands (R55), or the bytes of a wire frame with the routing hint beside them (R43, R87;
log entries 2 and 3). -/
inductive PortWord where
  | request (op : BitVec 4) (args : List Arg)
  | frame (raw : Bytes) (hint : Option Int)
deriving DecidableEq, Repr

end Sys2Proof
end

