-- ==== Sys2Proof/Machine/Flags.lean ====
section
/-! DEFINITION. The computed result bits and the XOR fold they rest on. The block has no flags
register (R28); `csum_ok` and `degenerate` are bits of a result. -/

namespace Sys2Proof.Machine

/-- `xor_fold(s)`: the XOR of every byte of `s`; 0x00 for the empty sequence (R12, R64). -/
def xorFold : Bytes → Byte
  | [] => 0x00#8
  | b :: bs => b ^^^ xorFold bs

/-- The byte that carries the length of `data` (R50, R68). -/
def lengthByte (data : Bytes) : Byte :=
  BitVec.ofNat 8 data.length

/-- The bytes a frame's checksum covers: "every byte from `start` through the last data byte" (R51,
R64), laid out as R43 gives them. -/
def frameBody (start : Byte) (address : Bytes) (command byteCount : Byte) (data : Bytes) : Bytes :=
  start :: address ++ command :: byteCount :: data

/-- `csum_ok`: the received checksum equals the XOR of the bytes it covers (R28, R74). -/
def checksumOk (body : Bytes) (rx : Byte) : Bool :=
  decide (xorFold body = rx)

/-- `degenerate` of LADDR: fewer than 5 bytes were given (R67, decision D11). -/
def isDegenerate (u : Bytes) : Bool :=
  decide (u.length < 5)

end Sys2Proof.Machine
end

