-- ==== Sys2Proof/Machine/Operands.lean ====
section
/-! DEFINITION. How operands become frame fields: key masking, byte range checks, the preamble clamp,
the address builders, and the layout of unique ids (R9, R33, R48, R49, R61, R65 to R67). -/

namespace Sys2Proof.Machine

/-- `n & 0x0F` on an unbounded integer: the Euclidean remainder `n mod 16` in 0..15, negative `n`
included (R9, decision D5). -/
def keyOf (n : Int) : Key :=
  ⟨(n % 16).toNat, by omega⟩

/-- The key in a short address byte: bits 3:0; bits 7:4 are ignored (R48, R86). -/
def keyOfByte (b : Byte) : Key :=
  (b.extractLsb' 0 4).toFin

/-- A key as a byte. -/
def keyByte (k : Key) : Byte :=
  BitVec.ofNat 8 k.val

/-- An integer operand that fills a whole byte: range-checked 0..255, not masked (R61, decision D6). -/
def byteOperand (n : Int) : Option Byte :=
  if 0 ≤ n ∧ n ≤ 255 then some (BitVec.ofNat 8 n.toNat) else none

/-- The data operand fits the one-byte byte count (R50, R68, decision D6). -/
def dataFits (data : Bytes) : Bool :=
  decide (data.length ≤ Config.maxDataLen)

/-- `clamp(n, 3, 7) = min(max(n, 3), 7)` for any integer, as the 3-bit field PRE (R21, R78). -/
def clampPreambles (n : Int) : BitVec 3 :=
  BitVec.ofNat 3 (min (max n Config.preMin) Config.preMax).toNat

/-- `rep(0xFF, n)` (R65). -/
def preambleBytes (n : Nat) : Bytes :=
  List.replicate n Config.preambleByte

/-- The short address byte `0x80 | (n & 0x0F)`: bit 7 is the master flag (R48, R66). -/
def shortAddress (n : Int) : Byte :=
  0x80#8 ||| keyByte (keyOf n)

/-- The long address of a unique id: the first five bytes with bit 7 of byte 0 forced to 1; given
fewer than five bytes, the zeroed placeholder with bit 7 set (R49, R67). -/
def longAddress : Bytes → Bytes
  | a :: b :: c :: d :: e :: _ => [a ||| 0x80#8, b, c, d, e]
  | _ => [0x80#8, 0x00#8, 0x00#8, 0x00#8, 0x00#8]

/-- Directory comparison of a long address with a unique id: 39 bits, bit 7 of byte 0 ignored (R88,
decision D19). -/
def longAddressMatches (address uid : Bytes) : Bool :=
  match address, uid with
  | a :: as, u :: us => decide (a &&& 0x7F#8 = u &&& 0x7F#8) && decide (as = us)
  | _, _ => false

/-- `CFG` after reset, from the parameters `RESET_FMT` and `RESET_PRE`: FMT at bit 0, PRE at bits 6:4
and 0 elsewhere (R19, R30, R119). -/
def resetCfg (p : Params) : BitVec 8 :=
  (0#1 ++ p.resetPre ++ 0#3 ++ p.resetFmt : BitVec (1 + 3 + 3 + 1))

/-- The unique id `manufacturer_id ‖ device_type ‖ serial_number`, the 24-bit serial big-endian (R33,
R101). -/
def uniqueIdOf (manufacturer deviceType : Byte) (serial : BitVec 24) : UniqueId :=
  #v[manufacturer, deviceType, serial.extractLsb' 16 8, serial.extractLsb' 8 8, serial.extractLsb' 0 8]

/-- The manufacturer id of a unique id: byte 0 (R33). -/
def manufacturerOf (u : UniqueId) : Byte := u[0]

/-- The device type of a unique id: byte 1 (R33). -/
def deviceTypeOf (u : UniqueId) : Byte := u[1]

/-- The 24-bit serial number of a unique id: byte 2 holds serial bits 23:16, byte 3 bits 15:8, byte 4
bits 7:0 (R33). -/
def serialOf (u : UniqueId) : BitVec 24 :=
  BitVec.ofNat 24 (u[2].toNat * 65536 + u[3].toNat * 256 + u[4].toNat)

end Sys2Proof.Machine
end

