-- ==== Sys2Proof/WellFormed.lean ====
section
/-! DEFINITION. Well-formed operations: what the types of the operands do not say already. -/

namespace Sys2Proof

/-- A wire frame of address width `w`: the address has that width (R46) and the byte count is one
byte (R50). -/
def WireFrame.wellFormed (w : Nat) (f : WireFrame) : Bool :=
  decide (f.address.length = w) && decide (f.data.length ≤ Config.maxDataLen)

/-- An operation the port can carry. Every operand value of R61 is admitted by its type, range-checked
operands included (out of range they complete with ARG_RANGE, R68); only a wire frame has a
condition between its fields. -/
def Instr.wellFormed : Instr → Bool
  | .csum _ => true
  | .preamble _ => true
  | .saddr _ => true
  | .laddr _ => true
  | .encode _ _ _ _ _ => true
  | .decode _ => true
  | .decodeRsp _ => true
  | .cfgw _ _ => true
  | .cfgr => true
  | .build _ _ _ => true
  | .register _ _ => true
  | .move _ _ => true
  | .scan => true
  | .transact _ _ => true
  | .reserved0 => true
  | .reservedF => true
  | .frameShortReq f _ => f.wellFormed 1
  | .frameShortRsp f _ => f.wellFormed 1
  | .frameLongReq f _ => f.wellFormed 5
  | .frameLongRsp f _ => f.wellFormed 5

end Sys2Proof
end

