-- ==== Sys2Proof/Decode.lean ====
section
/-! DEFINITION. The two decoders of the block and their encoders. Wire frames: the delimiter/address
parser (R70 to R75) and the frame layout (R43 to R45, R68). Command port: the op code map and operand
types (R55, R58, R61). Decoding is total and rejects by name. -/

namespace Sys2Proof

open Sys2Proof.Machine

/-! ### Wire frames -/

/-- Why a byte sequence is no frame, in the order of R108. All four are ABSENT at DECODE (R105). -/
inductive ParseFailure where
  /-- Empty, or all 0xFF (R71). -/
  | noStartByte
  /-- The start byte is none of the four delimiters (R47, R72). -/
  | unrecognizedStart
  /-- Fewer than `w + 2` bytes after the start byte (R73). -/
  | headerTooShort
  /-- Fewer than `byte_count + 1` bytes after the byte count (R73). -/
  | bodyTooShort
deriving DecidableEq, Repr

/-- The address width a start delimiter selects, by exact equality of the whole byte (R46, R47, R72). -/
def addressWidth (start : Byte) : Option Nat :=
  if start = 0x02#8 ∨ start = 0x06#8 then some 1
  else if start = 0x82#8 ∨ start = 0x86#8 then some 5
  else none

/-- How many leading bytes are 0xFF (R71). -/
def countPreambles : Bytes → Nat
  | [] => 0
  | b :: bs => if b = Config.preambleByte then countPreambles bs + 1 else 0

/-- Data, checksum and the bytes after them, once address, command and byte count are read (R70, R73).
The checksum byte is there exactly when `byte_count + 1` bytes remain. -/
def parseBody (pre : Nat) (start : Byte) (address : Bytes) (command byteCount : Byte) (rest : Bytes) :
    Except ParseFailure (ParsedFrame × Bytes) :=
  match rest.drop byteCount.toNat with
  | rx :: trailing =>
    let data := rest.take byteCount.toNat
    .ok ({ preambles := pre, start := start, address := address, command := command,
           byteCount := byteCount, data := data, rxChecksum := rx,
           csumOk := checksumOk (frameBody start address command byteCount data) rx }, trailing)
  | [] => .error .bodyTooShort

/-- Address, command and byte count after the start byte (R70, R73). Two bytes are there beyond the
address exactly when `w + 2` bytes remain. -/
def parseHeader (pre : Nat) (start : Byte) (w : Nat) (rest : Bytes) :
    Except ParseFailure (ParsedFrame × Bytes) :=
  match rest.drop w with
  | command :: byteCount :: body => parseBody pre start (rest.take w) command byteCount body
  | _ => .error .headerTooShort

/-- The frame at the head of `raw` and the bytes after it (R70). -/
def parseFrameRest (raw : Bytes) : Except ParseFailure (ParsedFrame × Bytes) :=
  match raw.drop (countPreambles raw) with
  | [] => .error .noStartByte
  | start :: rest =>
    match addressWidth start with
    | none => .error .unrecognizedStart
    | some w => parseHeader (countPreambles raw) start w rest

/-- DECODE's parser: the bytes after the frame are ignored (R70, R75). -/
def parseFrame (raw : Bytes) : Except ParseFailure ParsedFrame :=
  (parseFrameRest raw).map Prod.fst

/-- The bytes of a frame with a given checksum byte (R43): preambles, start, address, command, byte
count, data, checksum. -/
def layoutFrame (p : Nat) (start : Byte) (address : Bytes) (command : Byte) (data : Bytes)
    (checksum : Byte) : Bytes :=
  preambleBytes p ++ frameBody start address command (lengthByte data) data ++ [checksum]

/-- ENCODE's frame: the checksum is the XOR of every byte from start through the last data byte
(R68). -/
def encodeFrame (p : Nat) (start : Byte) (address : Bytes) (command : Byte) (data : Bytes) : Bytes :=
  layoutFrame p start address command data
    (xorFold (frameBody start address command (lengthByte data) data))

/-- ENCODE with its operand checks: start and command 0..255 and at most 255 data bytes (R68, decision
D6); `none` is ARG_RANGE. -/
def encodeChecked (p : Nat) (start : Int) (address : Bytes) (command : Int) (data : Bytes) :
    Option Bytes :=
  match byteOperand start, byteOperand command, dataFits data with
  | some st, some cmd, true => some (encodeFrame p st address cmd data)
  | _, _, _ => none

/-- The bytes of a wire frame whose start delimiter is `start` (R43), with what follows it. -/
def WireFrame.bytes (start : Byte) (f : WireFrame) : Bytes :=
  layoutFrame f.preambles start f.address f.command f.data f.checksum ++ f.trailing

/-- The fields of a parsed frame as a wire frame. -/
def WireFrame.ofParsed (p : ParsedFrame) (trailing : Bytes) : WireFrame where
  preambles := p.preambles
  address := p.address
  command := p.command
  data := p.data
  checksum := p.rxChecksum
  trailing := trailing

/-- The ParsedRequest a device receives: the six fields, without the checksum additions (R89, decision
D39). -/
def ParsedFrame.toRequest (p : ParsedFrame) : ParsedRequest where
  preambles := p.preambles
  start := p.start
  address := p.address
  command := p.command
  byteCount := p.byteCount
  data := p.data

/-! ### The decoder -/

/-- Why a word is no operation. -/
inductive DecodeError where
  /-- A command-port request whose operands are not those its op takes (R55, R61). -/
  | operands (op : BitVec 4)
  /-- Bytes that are no frame (R70). -/
  | frame (why : ParseFailure)
deriving DecidableEq, Repr

/-- A command-port request (R58, R61). The reserved ops are decided from the op code "before any operand
is looked at" (R108, R109). -/
def decodeRequest (op : BitVec 4) (args : List Arg) : Except DecodeError Instr :=
  match op.toNat with
  | 0x0 => .ok .reserved0
  | 0x1 => match args with | [.bytes s] => .ok (.csum s) | _ => .error (.operands op)
  | 0x2 => match args with | [.nat n] => .ok (.preamble n) | _ => .error (.operands op)
  | 0x3 => match args with | [.int n] => .ok (.saddr n) | _ => .error (.operands op)
  | 0x4 => match args with | [.bytes u] => .ok (.laddr u) | _ => .error (.operands op)
  | 0x5 => match args with
    | [.nat p, .int start, .bytes address, .int command, .bytes data] =>
      .ok (.encode p start address command data)
    | _ => .error (.operands op)
  | 0x6 => match args with | [.bytes raw] => .ok (.decode raw) | _ => .error (.operands op)
  | 0x7 => match args with | [.bytes raw] => .ok (.decodeRsp raw) | _ => .error (.operands op)
  | 0x8 => match args with | [.bit fmt, .int n] => .ok (.cfgw fmt n) | _ => .error (.operands op)
  | 0x9 => match args with | [] => .ok .cfgr | _ => .error (.operands op)
  | 0xA => match args with
    | [.int address, .int command, .bytes data] => .ok (.build address command data)
    | _ => .error (.operands op)
  | 0xB => match args with
    | [.int address, .dev d] => .ok (.register address d)
    | _ => .error (.operands op)
  | 0xC => match args with | [.int old, .int new] => .ok (.move old new) | _ => .error (.operands op)
  | 0xD => match args with | [] => .ok .scan | _ => .error (.operands op)
  | 0xE => match args with
    | [.bytes frame, .optInt hint] => .ok (.transact frame hint)
    | _ => .error (.operands op)
  | _ => .ok .reservedF

/-- The frame row a parsed start delimiter stands for (R46). The parser leaves no fifth value. -/
def frameInstr (start : Byte) (f : WireFrame) (hint : Option Int) : Instr :=
  if start = 0x02#8 then .frameShortReq f hint
  else if start = 0x06#8 then .frameShortRsp f hint
  else if start = 0x82#8 then .frameLongReq f hint
  else .frameLongRsp f hint

/-- The operation a word carries, or why it carries none. Total on every word. -/
def decode : PortWord → Except DecodeError Instr
  | .request op args => decodeRequest op args
  | .frame raw hint =>
    match parseFrameRest raw with
    | .ok (p, trailing) => .ok (frameInstr p.start (WireFrame.ofParsed p trailing) hint)
    | .error why => .error (.frame why)

/-! ### The encoder -/

/-- The word of an operation, from the op code map (R58), the operand types (R61) and the frame layout
(R43 to R46). -/
def encode : Instr → PortWord
  | .csum s => .request 0x1#4 [.bytes s]
  | .preamble n => .request 0x2#4 [.nat n]
  | .saddr n => .request 0x3#4 [.int n]
  | .laddr u => .request 0x4#4 [.bytes u]
  | .encode p start address command data =>
    .request 0x5#4 [.nat p, .int start, .bytes address, .int command, .bytes data]
  | .decode raw => .request 0x6#4 [.bytes raw]
  | .decodeRsp raw => .request 0x7#4 [.bytes raw]
  | .cfgw fmt n => .request 0x8#4 [.bit fmt, .int n]
  | .cfgr => .request 0x9#4 []
  | .build address command data => .request 0xA#4 [.int address, .int command, .bytes data]
  | .register address d => .request 0xB#4 [.int address, .dev d]
  | .move old new => .request 0xC#4 [.int old, .int new]
  | .scan => .request 0xD#4 []
  | .transact frame hint => .request 0xE#4 [.bytes frame, .optInt hint]
  | .reserved0 => .request 0x0#4 []
  | .reservedF => .request 0xF#4 []
  | .frameShortReq f hint => .frame (f.bytes 0x02#8) hint
  | .frameShortRsp f hint => .frame (f.bytes 0x06#8) hint
  | .frameLongReq f hint => .frame (f.bytes 0x82#8) hint
  | .frameLongRsp f hint => .frame (f.bytes 0x86#8) hint

/-! ### Words of the opcode table -/

/-- The operands of an op (R61), each at zero: empty bytes, 0, format 0, handle 0, no hint. -/
def zeroArgs (op : BitVec 4) : List Arg :=
  match op.toNat with
  | 0x1 => [.bytes []]
  | 0x2 => [.nat 0]
  | 0x3 => [.int 0]
  | 0x4 => [.bytes []]
  | 0x5 => [.nat 0, .int 0, .bytes [], .int 0, .bytes []]
  | 0x6 => [.bytes []]
  | 0x7 => [.bytes []]
  | 0x8 => [.bit 0#1, .int 0]
  | 0xA => [.int 0, .int 0, .bytes []]
  | 0xB => [.int 0, .dev ⟨0⟩]
  | 0xC => [.int 0, .int 0]
  | 0xE => [.bytes [], .optInt none]
  | _ => []

/-- The first `n` bytes of a number, least significant byte first: the byte order in which
spec/opcode_table.json numbers the bytes of a row. -/
def tableBytes : Nat → Nat → Bytes
  | 0, _ => []
  | n + 1, w => BitVec.ofNat 8 w :: tableBytes n (w / 256)

/-- How many bytes the frame of a table value of `nbits` bits is given. A value of one byte is a start
delimiter, so the byte count is a zero above it and 9 bytes hold the longest frame (R45); a longer
value may hold a byte count, up to 255 data bytes. -/
def tableFrameLength (nbits : Nat) : Nat :=
  if nbits ≤ 8 then 9 else max 264 ((nbits + 7) / 8)

/-- The word that the opcode table's bits `w` stand for. A value of 4 bits is the op code of a
command-port request with operands of zeros; any other value is the bytes of a frame, followed by
zeros. The op codes and the start delimiters are two number spaces of the table, and 0x02 and 0x06
stand in both; here such a value of at most 8 bits is the op code (log entry 2). -/
def tableWord (nbits w : Nat) : PortWord :=
  if nbits ≤ 8 ∧ w < 16 then .request (BitVec.ofNat 4 w) (zeroArgs (BitVec.ofNat 4 w))
  else .frame (tableBytes (tableFrameLength nbits) w) none

/-- What the decoder reads from a word of the opcode table. -/
def decodeTableWord (nbits w : Nat) : Option Instr :=
  (decode (tableWord nbits w)).toOption

end Sys2Proof
end

