-- ==== Sys2Proof/Machine/State.lean ====
section
/-! DEFINITION. The machine's state as plain data: the block's state (R16), the parameters (R7), the
ports (R55, R56, R95 to R97) and the model's own fields for free inputs; and the state after reset. -/

namespace Sys2Proof.Machine

/-- One record of a scan (R14, R25, R85). -/
structure Summary where
  address : Key
  uniqueId : UniqueId
  serialHex : Text
  model : Text
  manufacturer : Text
deriving DecidableEq, Repr

/-- The internal lock (R26). -/
inductive Lock where
  | free
  | held
deriving DecidableEq, Repr

/-- The completion statuses (R105). -/
inductive Status where
  | ok
  | absent
  | emptyGarbled
  | emptyNoRoute
  | emptyMiss
  | emptyDevice
  | resolveErr
  | argRange
  | moveEmpty
  | illegalOp
deriving DecidableEq, Repr

/-- The results an operation returns (R56). -/
inductive Result where
  /-- No results. -/
  | none
  /-- CSUM's checksum, CFGR's register byte. -/
  | byte (b : Byte)
  /-- Byte sequences: PREAMBLE, SADDR, ENCODE, BUILD, TRANSACT. -/
  | bytes (s : Bytes)
  /-- LADDR's address and its `degenerate` bit. -/
  | longAddress (a : Bytes) (degenerate : Bool)
  /-- DECODE's record. -/
  | frame (f : ParsedFrame)
  /-- DECODE_RSP's record. -/
  | response (r : ParsedResponse)
  /-- SCAN's list. -/
  | summaries (l : List Summary)
deriving DecidableEq, Repr

/-- The response of the command port: exactly one for each request (R56). -/
structure Response where
  status : Status
  result : Result
deriving DecidableEq, Repr

/-- What the block does at the device port (R95 to R97), and its `wait` points, each of `BUS_DELAY`
(R131). -/
inductive Activity where
  | handle (dev : DevId) (req : ParsedRequest)
  | summary (dev : DevId)
  | setPollingAddress (dev : DevId) (k : Key)
  | wait
deriving DecidableEq, Repr

/-- What the outside world presents to the block, each taken between operations. -/
inductive Input where
  /-- A command-port request or a wire frame. -/
  | word (w : PortWord)
  /-- The reset input (R119). -/
  | reset
  /-- A device's own state changes with no operation of the block (R42, R104; log entry 16). -/
  | deviceChange (dev : DevId) (view : DeviceView)
deriving DecidableEq, Repr

/-- The state. -/
structure State where
  /-- The model parameters (R7); no operation writes them. -/
  params : Params
  /-- `CFG` (R19). -/
  cfg : BitVec 8
  /-- `REG[0..15]` (R23). -/
  reg : Vector (Option DevId) 16
  /-- `SCAN_CACHE` (R25). -/
  scanCache : List Summary
  /-- `LOCK` (R26). -/
  lock : Lock
  /-- What each device shows at the port, by rising handle; an unlisted device shows
  `Config.freeView` (R29, R96; log entry 6). -/
  devices : List (DevId × DeviceView)
  /-- What the outside world presents, oldest first (R38, R55). -/
  inputs : List Input
  /-- How coming `handle` calls end, where the outside supplies it, oldest first (log entry 5). -/
  handleResults : List HandleOutcome
  /-- How many free values `handle` calls have taken (log entry 5). -/
  draws : Nat
  /-- The response on the command port; none before the first (R56; log entry 9). -/
  response : Option Response
  /-- What the last operation did at the device port, oldest first (log entry 10). -/
  activity : List Activity
deriving DecidableEq, Repr

/-- Reasons the machine stops. Errors are completion statuses and no reasons to stop (R105, R106); what is
left is a block stuck inside a device call that never returns, which the device contract rules out
(R118, U6; log entry 7). -/
inductive Fault where
  /-- Stuck: raised by a transaction whose `handle` call on this device never returns; safe. -/
  | handleNeverReturns (dev : DevId)
  /-- Stuck: raised by SCAN, and by a transaction's directory lookup, when a `summary` call on this device
  never returns; safe. -/
  | summaryNeverReturns (dev : DevId)
deriving DecidableEq, Repr

/-- Reasons the model gives an input no meaning. -/
inductive Refusal where
  /-- An operation of the opcode table whose arm of `exec` has no meaning yet; safe. -/
  | notModelled (mnemonic : String)
  /-- Raised by `step` for a command-port request whose operands are not those R61 gives its op,
  which R55 says the port does not carry; safe (log entry 4). -/
  | operandTypes (op : BitVec 4)
deriving DecidableEq, Repr

/-- Every slot of `REG` empty (R30). -/
def emptyReg : Vector (Option DevId) 16 :=
  Vector.replicate 16 none

/-- The machine right after reset (R30, R119), with the parameter values the spec takes (R7). The ports
and the model's own fields are empty (log entry 12). -/
def State.reset : State where
  params := Config.specParams
  cfg := resetCfg Config.specParams
  reg := emptyReg
  scanCache := []
  lock := .free
  devices := []
  inputs := []
  handleResults := []
  draws := 0
  response := none
  activity := []

end Sys2Proof.Machine
end

