-- ==== Sys2Proof/Machine/Ops.lean ====
section
/-! DEFINITION. The named operations over the state: the fields of `CFG`, the registry, the scan cache,
the device port, and how an operation completes. -/

namespace Sys2Proof.Machine

/-- The 4-bit code of a completion status (R57, R105). -/
def Status.code : Status → BitVec 4
  | .ok => 0#4
  | .absent => 1#4
  | .emptyGarbled => 2#4
  | .emptyNoRoute => 3#4
  | .emptyMiss => 4#4
  | .emptyDevice => 5#4
  | .resolveErr => 6#4
  | .argRange => 7#4
  | .moveEmpty => 8#4
  | .illegalOp => 9#4

/-! ### CFG -/

/-- `CFG.FMT`, bit 0 (R19). -/
def cfgFmt (c : BitVec 8) : BitVec 1 :=
  c.extractLsb' 0 1

/-- `CFG.PRE`, bits 6:4 (R19). -/
def cfgPre (c : BitVec 8) : BitVec 3 :=
  c.extractLsb' 4 3

/-- The reserved bits of `CFG`: bit 7 and bits 3:1 (R19, R22). -/
def cfgReserved (c : BitVec 8) : BitVec 4 :=
  (c.extractLsb' 7 1 ++ c.extractLsb' 1 3 : BitVec (1 + 3))

/-- `CFG` with both fields written; no operation writes the reserved bits (R22, R78; log entry 19). -/
def cfgWith (fmt : BitVec 1) (pre : BitVec 3) (c : BitVec 8) : BitVec 8 :=
  (c.extractLsb' 7 1 ++ pre ++ c.extractLsb' 1 3 ++ fmt : BitVec (1 + 3 + 3 + 1))

/-- The byte CFGR reads: `(CFG.PRE << 4) | CFG.FMT`, so the reserved bits read 0 (R79). -/
def cfgRead (c : BitVec 8) : Byte :=
  ((cfgPre c).setWidth 8 <<< 4) ||| (cfgFmt c).setWidth 8

/-- Replace `CFG`. -/
def State.writeCfg (s : State) (c : BitVec 8) : State :=
  { s with cfg := c }

/-! ### Registry and scan cache -/

/-- `REG[k]` (R23). -/
def State.readReg (s : State) (k : Key) : Option DevId :=
  s.reg[k]

/-- `REG[k] <- v` (R23, R24). -/
def State.writeReg (s : State) (k : Key) (v : Option DevId) : State :=
  { s with reg := s.reg.set k v }

/-- `SCAN_CACHE <- l`, the whole list (R25). -/
def State.writeScanCache (s : State) (l : List Summary) : State :=
  { s with scanCache := l }

/-- The occupied slots with their devices, by rising key (R85, R88). -/
def State.occupied (s : State) : List (Key × DevId) :=
  (List.finRange 16).filterMap fun k => (s.readReg k).map fun d => (k, d)

/-- The entry of `SCAN_CACHE` whose address is `k` (R80, R81). -/
def State.cachedSummary (s : State) (k : Key) : Option Summary :=
  s.scanCache.find? fun e => decide (e.address = k)

/-! ### The device port -/

/-- Look a handle up in the table of devices. -/
def lookupView (d : DevId) : List (DevId × DeviceView) → Option DeviceView
  | [] => none
  | (e, v) :: rest => if e = d then some v else lookupView d rest

/-- Write a handle's entry, keeping the table in rising order of handles, one entry each. -/
def insertView (d : DevId) (v : DeviceView) : List (DevId × DeviceView) → List (DevId × DeviceView)
  | [] => [(d, v)]
  | (e, u) :: rest =>
    if d.handle < e.handle then (d, v) :: (e, u) :: rest
    else if e = d then (d, v) :: rest
    else (e, u) :: insertView d v rest

/-- The canonical form of the table of devices: handles strictly rising. -/
abbrev devicesSorted (l : List (DevId × DeviceView)) : Prop :=
  l.Pairwise fun a b => a.1.handle < b.1.handle

/-- `dev.summary()`: the device's current values; it changes nothing (R96). -/
def State.view (s : State) (d : DevId) : DeviceView :=
  (lookupView d s.devices).getD (Config.freeView d)

/-- The device's own state becomes `v`. -/
def State.writeView (s : State) (d : DevId) (v : DeviceView) : State :=
  { s with devices := insertView d v s.devices }

/-- `dev.set_polling_address(k)` (R97). -/
def State.setPollingAddress (s : State) (d : DevId) (k : Key) : State :=
  s.writeView d { s.view d with pollingAddress := k }

/-- The first of these devices whose `summary` call never returns (R118, U6; log entry 7). -/
def State.hungSummary (s : State) (l : List DevId) : Option DevId :=
  l.find? fun d => !(s.view d).summaryReturns

/-- How the next `dev.handle` call ends: the oldest supplied outcome, or a free value (R95, R104, R118; log
entries 5 and 7). -/
def State.nextHandle (s : State) : HandleOutcome :=
  match s.handleResults with
  | h :: _ => h
  | [] => Config.freeHandleOutcome s.draws

/-- The supplied result, or the free value, is used up. -/
def State.dropHandleResult (s : State) : State :=
  match s.handleResults with
  | _ :: rest => { s with handleResults := rest }
  | [] => { s with draws := s.draws + 1 }

/-- The state after a `dev.handle` call that returned and left the called device showing `v`: the called
device's own state may have changed, no other device's and nothing of the block's (R29, R95, R115; log
entry 24). -/
def State.afterHandle (s : State) (d : DevId) (v : DeviceView) : State :=
  s.dropHandleResult.writeView d v

/-- The scan record of one occupied slot: the address is the key, the rest what the device shows (R85,
decision D27). -/
def State.summaryAt (s : State) (k : Key) (d : DevId) : Summary where
  address := k
  uniqueId := (s.view d).uniqueId
  serialHex := (s.view d).serialHex
  model := (s.view d).model
  manufacturer := (s.view d).manufacturer

/-! ### Completion -/

/-- The response stands on the port, and `acts` is what the operation did at the device port. -/
def State.finish (s : State) (acts : List Activity) (status : Status) (result : Result) : State :=
  { s with response := some ⟨status, result⟩, activity := acts }

/-- An operation ends with a status and results; a status other than OK is returned like any result
(R56, R106). -/
def complete (acts : List Activity) (status : Status) (result : Result) (s : State) :
    Host.Outcome State Fault Refusal :=
  .next (s.finish acts status result)

/-! ### Inputs -/

/-- The pending inputs become `rest`. -/
def State.withInputs (s : State) (rest : List Input) : State :=
  { s with inputs := rest }

/-- The reset input: every piece of block state at its reset value; no device call, every device's own
state as it was (R119, R120; log entry 15). -/
def State.resetBlock (s : State) : State :=
  { s with
    cfg := resetCfg s.params
    reg := emptyReg
    scanCache := []
    lock := .free
    response := none
    activity := [] }

end Sys2Proof.Machine
end

