-- ==== Sys2Proof/Machine/Builder.lean ====
section
/-! DEFINITION. The request builder: CFGW, CFGR, BUILD (spec/41_builder.md). -/

namespace Sys2Proof.Machine

/-- CFGW: both fields are written, the preamble count clamped (R78). -/
def execCfgw (fmt : BitVec 1) (n : Int) (s : State) : Host.Outcome State Fault Refusal :=
  complete [] .ok .none (s.writeCfg (cfgWith fmt (clampPreambles n) s.cfg))

/-- CFGR (R79). -/
def execCfgr (s : State) : Host.Outcome State Fault Refusal :=
  complete [] .ok (.byte (cfgRead s.cfg)) s

/-- The short-mode request frame: start 0x02 and the short address (R80). -/
def buildShort (s : State) (address : Int) (command : Byte) (data : Bytes) : Bytes :=
  encodeFrame (cfgPre s.cfg).toNat 0x02#8 [shortAddress address] command data

/-- The long-mode request frame to a scanned device: start 0x82 and its long address (R80, R81). -/
def buildLong (s : State) (e : Summary) (command : Byte) (data : Bytes) : Bytes :=
  encodeFrame (cfgPre s.cfg).toNat 0x82#8 (longAddress e.uniqueId.toList) command data

/-- BUILD once its operands are in range (R80 to R82). -/
def buildInRange (address : Int) (command : Byte) (data : Bytes) (s : State) :
    Host.Outcome State Fault Refusal :=
  if cfgFmt s.cfg = 0#1 then
    complete [] .ok (.bytes (buildShort s address command data)) s
  else
    match s.cachedSummary (keyOf address) with
    | some e => complete [] .ok (.bytes (buildLong s e command data)) s
    | none =>
      if s.params.buildFallbackShort then
        complete [] .ok (.bytes (buildShort s address command data)) s
      else complete [] .resolveErr .none s

/-- BUILD: the operands are checked before the address is resolved (R80, R108, decision D38). -/
def execBuild (address command : Int) (data : Bytes) (s : State) : Host.Outcome State Fault Refusal :=
  match byteOperand command, dataFits data with
  | some cmd, true => buildInRange address cmd data s
  | _, _ => complete [] .argRange .none s

end Sys2Proof.Machine
end

