-- ==== Sys2Proof/Machine/Codec.lean ====
section
/-! DEFINITION. The frame codec: CSUM, PREAMBLE, SADDR, LADDR, ENCODE, DECODE, DECODE_RSP
(spec/40_codec.md). Every one is pure: it reads its operands only, writes no block state and calls no
device (R16). -/

namespace Sys2Proof.Machine

/-- CSUM (R64). -/
def execCsum (b : Bytes) (s : State) : Host.Outcome State Fault Refusal :=
  complete [] .ok (.byte (xorFold b)) s

/-- PREAMBLE (R65). -/
def execPreamble (n : Nat) (s : State) : Host.Outcome State Fault Refusal :=
  complete [] .ok (.bytes (preambleBytes n)) s

/-- SADDR (R66). -/
def execSaddr (n : Int) (s : State) : Host.Outcome State Fault Refusal :=
  complete [] .ok (.bytes [shortAddress n]) s

/-- LADDR (R67). -/
def execLaddr (u : Bytes) (s : State) : Host.Outcome State Fault Refusal :=
  complete [] .ok (.longAddress (longAddress u) (isDegenerate u)) s

/-- ENCODE (R68). -/
def execEncode (p : Nat) (start : Int) (address : Bytes) (command : Int) (data : Bytes) (s : State) :
    Host.Outcome State Fault Refusal :=
  match encodeChecked p start address command data with
  | some f => complete [] .ok (.bytes f) s
  | none => complete [] .argRange .none s

/-- DECODE (R70 to R75). -/
def execDecode (raw : Bytes) (s : State) : Host.Outcome State Fault Refusal :=
  match parseFrame raw with
  | .ok f => complete [] .ok (.frame f) s
  | .error _ => complete [] .absent .none s

/-- The data of a response frame split into two status bytes and the payload; with fewer than two bytes
all three are absent (R52, R76, decision D10). -/
def splitResponse (f : ParsedFrame) : ParsedResponse :=
  match f.data with
  | s1 :: s2 :: payload => ⟨f, some s1, some s2, some payload⟩
  | _ => ⟨f, none, none, none⟩

/-- DECODE_RSP (R76). -/
def execDecodeRsp (raw : Bytes) (s : State) : Host.Outcome State Fault Refusal :=
  match parseFrame raw with
  | .ok f => complete [] .ok (.response (splitResponse f)) s
  | .error _ => complete [] .absent .none s

end Sys2Proof.Machine
end

