-- ==== Sys2Proof/Machine/Router.lean ====
section
/-! DEFINITION. The bus transaction router: REGISTER, MOVE, SCAN, TRANSACT (spec/42_router.md). -/

namespace Sys2Proof.Machine

/-- REGISTER: the slot at `address & 0x0F` holds the device; no device call (R83). -/
def execRegister (address : Int) (dev : DevId) (s : State) : Host.Outcome State Fault Refusal :=
  complete [] .ok .none (s.writeReg (keyOf address) (some dev))

/-- MOVE: the slot is emptied, the new slot overwritten, and the device's own polling address set, in one
step (R84). -/
def execMove (old new : Int) (s : State) : Host.Outcome State Fault Refusal :=
  match s.readReg (keyOf old) with
  | none => complete [] .moveEmpty .none s
  | some dev =>
    complete [.setPollingAddress dev (keyOf new)] .ok .none
      (((s.writeReg (keyOf old) none).writeReg (keyOf new) (some dev)).setPollingAddress dev (keyOf new))

/-- The records a SCAN gives now: one for each occupied slot, by rising address (R85). -/
def State.scanList (s : State) : List Summary :=
  s.occupied.map fun e => s.summaryAt e.1 e.2

/-- SCAN: one `summary` call for each occupied slot, then the wait; the cache is replaced whole (R85,
R131). A call that never returns leaves the block stuck in it (R118, U6). -/
def execScan (s : State) : Host.Outcome State Fault Refusal :=
  match s.hungSummary (s.occupied.map Prod.snd) with
  | some dev => .fault (.summaryNeverReturns dev)
  | none =>
    complete (s.occupied.map (fun e => .summary e.2) ++ [.wait]) .ok (.summaries s.scanList)
      (s.writeScanCache s.scanList)

/-! ### Address resolution -/

/-- The start delimiter is one of a short frame (R46, R86). -/
def isShortStart (start : Byte) : Bool :=
  decide (start = 0x02#8 ∨ start = 0x06#8)

/-- Does the device of an occupied slot answer to this long address (R88)? -/
def State.answersTo (s : State) (address : Bytes) (e : Key × DevId) : Bool :=
  longAddressMatches address (s.view e.2).uniqueId.toList

/-- Directory lookup: the lowest key whose device's current unique id matches (R88). -/
def State.directoryKey (s : State) (address : Bytes) : Option Key :=
  (s.occupied.find? (s.answersTo address)).map Prod.fst

/-- The slots a directory lookup asks: rising keys, up to and with the first match (R88; log entry 21). -/
def askedUpTo (p : Key × DevId → Bool) : List (Key × DevId) → List (Key × DevId)
  | [] => []
  | e :: rest => if p e then [e] else e :: askedUpTo p rest

/-- The key a request resolves to (R86, R87, R88). -/
def State.resolveKey (s : State) (p : ParsedFrame) (hint : Option Int) : Option Key :=
  if isShortStart p.start then some (keyOfByte (p.address.headD 0#8))
  else
    match s.params.longRoute with
    | .hint => hint.map keyOf
    | .directory => s.directoryKey p.address

/-- The devices the resolution asks by `summary` calls: only a directory lookup asks any (R96). -/
def State.askedDevices (s : State) (p : ParsedFrame) : List DevId :=
  if isShortStart p.start then []
  else
    match s.params.longRoute with
    | .hint => []
    | .directory => (askedUpTo (s.answersTo p.address) s.occupied).map Prod.snd

/-- The `summary` calls of the resolution (R96). -/
def State.resolveCalls (s : State) (p : ParsedFrame) : List Activity :=
  (s.askedDevices p).map .summary

/-! ### The transaction -/

/-- The device's reply is parsed and re-framed with the request's preamble count (R89, R90). -/
def reframe (preambles : Nat) (reply : Bytes) : Except ParseFailure Bytes :=
  match parseFrame reply with
  | .ok r => .ok (encodeFrame preambles r.start r.address r.command r.data)
  | .error why => .error why

/-- The transaction with a device: the one `handle` call, the reply's decode, the re-encode, the wait
(R39, R89). `calls` are the calls the resolution made. A call that never returns leaves the block stuck
in it (R118, U6). -/
def transactWith (calls : List Activity) (dev : DevId) (p : ParsedFrame) (s : State) :
    Host.Outcome State Fault Refusal :=
  match s.nextHandle with
  | .never => .fault (.handleNeverReturns dev)
  | .returns result =>
    match reframe p.preambles result.reply with
    | .ok out =>
      complete (calls ++ [.handle dev p.toRequest, .wait]) .ok (.bytes out) (s.afterHandle dev result.after)
    | .error _ =>
      complete (calls ++ [.handle dev p.toRequest, .wait]) .emptyDevice (.bytes [])
        (s.afterHandle dev result.after)

/-- The request goes to the slot it resolved to, if any (R89). -/
def deliver (key : Option Key) (p : ParsedFrame) (s : State) : Host.Outcome State Fault Refusal :=
  match key with
  | none => complete (s.resolveCalls p ++ [.wait]) .emptyNoRoute (.bytes []) s
  | some k =>
    match s.readReg k with
    | none => complete (s.resolveCalls p ++ [.wait]) .emptyMiss (.bytes []) s
    | some dev => transactWith (s.resolveCalls p) dev p s

/-- Route a parsed request (R86 to R89). A directory lookup asks one device after the other, and is stuck
at the first whose `summary` call never returns (R88, R118, U6). -/
def route (p : ParsedFrame) (hint : Option Int) (s : State) : Host.Outcome State Fault Refusal :=
  match s.hungSummary (s.askedDevices p) with
  | some dev => .fault (.summaryNeverReturns dev)
  | none => deliver (s.resolveKey p hint) p s

/-- The bus takes the bytes of a frame with the routing hint beside it (R89). Bytes that do not decode
are a dropped or garbled frame, and there is no wait (R94, R131). -/
def transact (frame : Bytes) (hint : Option Int) (s : State) : Host.Outcome State Fault Refusal :=
  match parseFrame frame with
  | .ok p => route p hint s
  | .error _ => complete [] .emptyGarbled (.bytes []) s

/-- TRANSACT (R89). -/
def execTransact (frame : Bytes) (hint : Option Int) (s : State) : Host.Outcome State Fault Refusal :=
  transact frame hint s

end Sys2Proof.Machine
end

