-- ==== Sys2Proof/Machine/Frames.lean ====
section
/-! DEFINITION. The wire frames of the opcode table. A frame is "decoded by 40_codec.md rule R70, routed
by 42_router.md rule R89" (the table's notes), request and response delimiters alike (R91): its meaning
is the bus transaction of its bytes (log entry 3). -/

namespace Sys2Proof.Machine

/-- FRAME_SHORT_REQ, start 0x02 (R46, R89). -/
def execFrameShortReq (f : WireFrame) (hint : Option Int) (s : State) : Host.Outcome State Fault Refusal :=
  transact (f.bytes 0x02#8) hint s

/-- FRAME_SHORT_RSP, start 0x06 (R46, R89, R91). -/
def execFrameShortRsp (f : WireFrame) (hint : Option Int) (s : State) : Host.Outcome State Fault Refusal :=
  transact (f.bytes 0x06#8) hint s

/-- FRAME_LONG_REQ, start 0x82 (R46, R89). -/
def execFrameLongReq (f : WireFrame) (hint : Option Int) (s : State) : Host.Outcome State Fault Refusal :=
  transact (f.bytes 0x82#8) hint s

/-- FRAME_LONG_RSP, start 0x86 (R46, R89, R91). -/
def execFrameLongRsp (f : WireFrame) (hint : Option Int) (s : State) : Host.Outcome State Fault Refusal :=
  transact (f.bytes 0x86#8) hint s

end Sys2Proof.Machine
end

