-- ==== Sys2Proof/Machine/Reserved.lean ====
section
/-! DEFINITION. The reserved op codes: they complete with ILLEGAL_OP, write no state, call no device and
do not wait (R59, R109). -/

namespace Sys2Proof.Machine

/-- The reserved op 0x0 (R109). -/
def execReserved0 (s : State) : Host.Outcome State Fault Refusal :=
  complete [] .illegalOp .none s

/-- The reserved op 0xF (R109). -/
def execReservedF (s : State) : Host.Outcome State Fault Refusal :=
  complete [] .illegalOp .none s

end Sys2Proof.Machine
end

