-- ==== Sys2Proof/Machine/Dispatch.lean ====
section
/-! DEFINITION. One arm for each operation. -/

namespace Sys2Proof.Machine

def exec (i : Instr) (s : State) : Host.Outcome State Fault Refusal :=
  match i with
  | .csum b => Sys2Proof.Machine.execCsum b s
  | .preamble n => Sys2Proof.Machine.execPreamble n s
  | .saddr n => Sys2Proof.Machine.execSaddr n s
  | .laddr u => Sys2Proof.Machine.execLaddr u s
  | .encode p start address command data => Sys2Proof.Machine.execEncode p start address command data s
  | .decode raw => Sys2Proof.Machine.execDecode raw s
  | .decodeRsp raw => Sys2Proof.Machine.execDecodeRsp raw s
  | .cfgw fmt n => Sys2Proof.Machine.execCfgw fmt n s
  | .cfgr => Sys2Proof.Machine.execCfgr s
  | .build address command data => Sys2Proof.Machine.execBuild address command data s
  | .register address dev => Sys2Proof.Machine.execRegister address dev s
  | .move old new => Sys2Proof.Machine.execMove old new s
  | .scan => Sys2Proof.Machine.execScan s
  | .transact frame hint => Sys2Proof.Machine.execTransact frame hint s
  | .reserved0 => Sys2Proof.Machine.execReserved0 s
  | .reservedF => Sys2Proof.Machine.execReservedF s
  | .frameShortReq f hint => Sys2Proof.Machine.execFrameShortReq f hint s
  | .frameShortRsp f hint => Sys2Proof.Machine.execFrameShortRsp f hint s
  | .frameLongReq f hint => Sys2Proof.Machine.execFrameLongReq f hint s
  | .frameLongRsp f hint => Sys2Proof.Machine.execFrameLongRsp f hint s

end Sys2Proof.Machine
end

