-- ==== Sys2Proof/Machine/Port.lean ====
section
/-! DEFINITION. What the block does with an input that is no operation: bytes that are no frame, a
request the port does not carry, the reset input, and a device's own change. -/

namespace Sys2Proof.Machine

/-- A word that does not decode. Bytes that are no frame are a dropped or garbled frame on the bus, and
complete as such, with no wait (R89, R94). A request whose operands are not those of its op is not
presented by R55, and has no meaning (log entry 4). -/
def rejectWord (e : DecodeError) (s : State) : Host.Outcome State Fault Refusal :=
  match e with
  | .frame _ => complete [] .emptyGarbled (.bytes []) s
  | .operands op => .refused (.operandTypes op)

/-- The reset input (R119, R120). -/
def takeReset (s : State) : Host.Outcome State Fault Refusal :=
  .next s.resetBlock

/-- A device's own state changes (R42, R104); the block does nothing. -/
def takeDeviceChange (dev : DevId) (view : DeviceView) (s : State) : Host.Outcome State Fault Refusal :=
  .next (s.writeView dev view)

end Sys2Proof.Machine
end

