-- ==== Sys2Proof/Machine/Step.lean ====
section
/-! DEFINITION. One step: the block takes the oldest pending input whole (R38). -/

namespace Sys2Proof.Machine

/-- One step. With nothing pending the block holds its state unchanged (R117). A word is decoded and its
operation run; each input is used up. -/
def step (s : State) : Host.Outcome State Fault Refusal :=
  match s.inputs with
  | [] => .next s
  | .word w :: rest =>
    match decode w with
    | .ok i => exec i (s.withInputs rest)
    | .error e => rejectWord e (s.withInputs rest)
  | .reset :: rest => takeReset (s.withInputs rest)
  | .deviceChange dev view :: rest => takeDeviceChange dev view (s.withInputs rest)

/-- The opcode table's word `w` as the next input, before whatever is pending. -/
def State.withFetchWord (s : State) (nbits w : Nat) : State :=
  s.withInputs (.word (tableWord nbits w) :: s.inputs)

end Sys2Proof.Machine
end

