-- ==== Sys2Proof/Safety.lean ====
section
/-! DEFINITION. The terms the claims use: the invariant of the machine, what a frame is (R43 to R46), when
a checksum is valid (R51), which key a request resolves to (R86 to R88), and what a conforming device
answers (R98 to R103). -/

namespace Sys2Proof.Machine

/-! ### The invariant -/

/-- A legal `CFG`: the reserved bits are 0 (R22) and PRE holds 3..7 (R21). -/
abbrev cfgLegal (c : BitVec 8) : Prop :=
  cfgReserved c = 0#4 ∧ 3 ≤ (cfgPre c).toNat

/-- Legal parameters: `RESET_PRE` is 3..7 (R7). -/
abbrev paramsLegal (p : Params) : Prop :=
  3 ≤ p.resetPre.toNat

/-- "Strictly ascending `address` order" (R25). -/
abbrev ascending (l : List Summary) : Prop :=
  l.Pairwise fun a b => a.address < b.address

/-- What every step keeps. -/
structure State.Inv (s : State) : Prop where
  params : paramsLegal s.params
  cfg : cfgLegal s.cfg
  scanCache : ascending s.scanCache
  lock : s.lock = .free
  devices : devicesSorted s.devices

/-- The block's state is the same (R16): `CFG`, `REG`, `SCAN_CACHE`, `LOCK`. -/
abbrev sameBlockState (s t : State) : Prop :=
  t.cfg = s.cfg ∧ t.reg = s.reg ∧ t.scanCache = s.scanCache ∧ t.lock = s.lock

/-! ### Frames -/

/-- The address width `w` of a recognized start delimiter (R46). -/
abbrev hasWidth (start : Byte) (w : Nat) : Prop :=
  (start = 0x02#8 ∧ w = 1) ∨ (start = 0x06#8 ∧ w = 1) ∨ (start = 0x82#8 ∧ w = 5) ∨
    (start = 0x86#8 ∧ w = 5)

/-- `raw` is a frame with the fields of `f`, followed by the bytes `t` (R43 to R46, R74). -/
structure FrameAt (raw : Bytes) (f : ParsedFrame) (t : Bytes) : Prop where
  width : hasWidth f.start f.address.length
  dataLength : f.data.length = f.byteCount.toNat
  bytes : raw = List.replicate f.preambles 0xFF#8 ++ [f.start] ++ f.address ++ [f.command, f.byteCount]
    ++ f.data ++ [f.rxChecksum] ++ t
  csumOk : f.csumOk =
    decide (xorFold ([f.start] ++ f.address ++ [f.command, f.byteCount] ++ f.data) = f.rxChecksum)

/-- `len_F` (R54). -/
def frameLength (f : ParsedFrame) : Nat :=
  f.preambles + f.address.length + f.data.length + 4

/-- `valid_csum(F)`: the XOR of every byte from start through the checksum, inclusive, is zero (R51). -/
abbrev validChecksum (raw : Bytes) (f : ParsedFrame) : Prop :=
  xorFold ((raw.take (frameLength f)).drop f.preambles) = 0x00#8

/-- The bytes ENCODE's rule gives for in-range operands (R68), written out. -/
def encodedBytes (p : Nat) (start : Byte) (address : Bytes) (command : Byte) (data : Bytes) : Bytes :=
  let body := [start] ++ address ++ [command, BitVec.ofNat 8 data.length] ++ data
  List.replicate p 0xFF#8 ++ body ++ [body.foldl (· ^^^ ·) 0x00#8]

end Sys2Proof.Machine

namespace Sys2Proof

/-! ### Kinds of operation -/

/-- The frame bytes and the hint that an operation puts on the bus: TRANSACT's operands, or a wire frame
of the opcode table laid out byte by byte (R43, R89). -/
def Instr.busFrame : Instr → Option (Bytes × Option Int)
  | .transact frame hint => some (frame, hint)
  | .frameShortReq f hint => some (wire 0x02#8 f, hint)
  | .frameShortRsp f hint => some (wire 0x06#8 f, hint)
  | .frameLongReq f hint => some (wire 0x82#8 f, hint)
  | .frameLongRsp f hint => some (wire 0x86#8 f, hint)
  | .csum _ => none
  | .preamble _ => none
  | .saddr _ => none
  | .laddr _ => none
  | .encode _ _ _ _ _ => none
  | .decode _ => none
  | .decodeRsp _ => none
  | .cfgw _ _ => none
  | .cfgr => none
  | .build _ _ _ => none
  | .register _ _ => none
  | .move _ _ => none
  | .scan => none
  | .reserved0 => none
  | .reservedF => none
where
  /-- The bytes of a wire frame, from the grammar of R43. -/
  wire (start : Byte) (f : WireFrame) : Bytes :=
    List.replicate f.preambles 0xFF#8 ++ [start] ++ f.address ++
      [f.command, BitVec.ofNat 8 f.data.length] ++ f.data ++ [f.checksum] ++ f.trailing

/-- The operation is one of the frame codec (R16). -/
def Instr.isCodec : Instr → Bool
  | .csum _ => true
  | .preamble _ => true
  | .saddr _ => true
  | .laddr _ => true
  | .encode _ _ _ _ _ => true
  | .decode _ => true
  | .decodeRsp _ => true
  | .cfgw _ _ => false
  | .cfgr => false
  | .build _ _ _ => false
  | .register _ _ => false
  | .move _ _ => false
  | .scan => false
  | .transact _ _ => false
  | .reserved0 => false
  | .reservedF => false
  | .frameShortReq _ _ => false
  | .frameShortRsp _ _ => false
  | .frameLongReq _ _ => false
  | .frameLongRsp _ _ => false

end Sys2Proof

namespace Sys2Proof.Machine

/-! ### Routing -/

/-- The device at key `k` answers to the long address `a`: its current unique id agrees with it but for
bit 7 of byte 0 (R88). -/
def AnswersAt (s : State) (a : Bytes) (k : Key) : Prop :=
  ∃ d, s.readReg k = some d ∧ ∃ b0 rest, a = b0 :: rest ∧
    b0 &&& 0x7F#8 = (s.view d).uniqueId[0] &&& 0x7F#8 ∧ rest = (s.view d).uniqueId.toList.drop 1

/-- The request resolves to key `k`: a short frame by bits 3:0 of its address byte (R86), a long frame by
the hint modulo 16 (R87) or by the lowest key whose device answers to the address (R88). -/
def Resolves (s : State) (p : ParsedFrame) (hint : Option Int) (k : Key) : Prop :=
  (∃ b, p.address = [b] ∧ k.val = b.toNat % 16) ∨
  (p.address.length = 5 ∧ s.params.longRoute = .hint ∧ ∃ h, hint = some h ∧ (k.val : Int) = h % 16) ∨
  (p.address.length = 5 ∧ s.params.longRoute = .directory ∧ AnswersAt s p.address k ∧
    ∀ j < k, ¬ AnswersAt s p.address j)

/-- The `summary` calls by which a request's key is looked up (R88, R96): none for a short frame or under
HINT; under DIRECTORY one for each occupied slot by rising key, up to and with the key that is found, or
for all of them when none is (log entry 21). -/
def resolutionCalls (s : State) (p : ParsedFrame) (found : Option Key) : List Activity :=
  if p.address.length = 5 ∧ s.params.longRoute = .directory then
    ((List.finRange 16).filter fun j => found.all fun k => decide (j ≤ k)).filterMap fun j =>
      (s.readReg j).map Activity.summary
  else []

/-- A resolution asks this device by a `summary` call: a long frame under DIRECTORY, and no lower key's
device answers to the address (R88; log entry 21). -/
def Asked (s : State) (p : ParsedFrame) (d : DevId) : Prop :=
  p.address.length = 5 ∧ s.params.longRoute = .directory ∧
    ∃ j, s.readReg j = some d ∧ ∀ k < j, ¬ AnswersAt s p.address k

/-- Every `summary` call of the resolution returns, as a conforming device's does (R118, U6; log entry 7). -/
def AskedReturn (s : State) (p : ParsedFrame) : Prop :=
  ∀ d, Asked s p d → (s.view d).summaryReturns = true

/-- Every call that the operation makes on a device returns, as a conforming device's does (R118, U6; log
entry 7): SCAN's `summary` calls, and a transaction's `summary` calls and its `handle` call.
`set_polling_address` always returns (R97). -/
def DeviceCallsReturn (i : Instr) (s : State) : Prop :=
  (i = .scan → ∀ k d, s.readReg k = some d → (s.view d).summaryReturns = true) ∧
  ∀ raw hint p t, i.busFrame = some (raw, hint) → FrameAt raw p t →
    AskedReturn s p ∧ ∀ k d, Resolves s p hint k → s.readReg k = some d → ∃ r, s.nextHandle = .returns r

/-- The transaction called `handle` on this device, whether the call returned or not. -/
def Reached (o : Host.Outcome State Fault Refusal) (d : DevId) : Prop :=
  o = .fault (.handleNeverReturns d) ∨ ∃ u q, o = .next u ∧ Activity.handle d q ∈ u.activity

/-- The transaction ended with this status. -/
def EndedWith (o : Host.Outcome State Fault Refusal) (st : Status) : Prop :=
  ∃ u r, o = .next u ∧ u.response = some r ∧ r.status = st

/-- Two transactions were routed alike: they called `handle` on the same device or on none, asked the same
devices for their unique id, are stuck in the same device's `summary` call or in none, and both have no
key, or both an empty slot, or neither. What a called device answers is left out: it may depend on the
request. -/
structure SameRoute (o o' : Host.Outcome State Fault Refusal) : Prop where
  reached : ∀ d, Reached o d ↔ Reached o' d
  stuckAsking : ∀ d, o = .fault (.summaryNeverReturns d) ↔ o' = .fault (.summaryNeverReturns d)
  asked : ∀ u v, o = .next u → o' = .next v →
    ∀ d, Activity.summary d ∈ u.activity ↔ Activity.summary d ∈ v.activity
  noRoute : EndedWith o .emptyNoRoute ↔ EndedWith o' .emptyNoRoute
  miss : EndedWith o .emptyMiss ↔ EndedWith o' .emptyMiss

/-! ### Conforming devices -/

/-- A conforming reply decodes (R98) and its data begins with two status bytes (R99). -/
def ConformingReply (reply : Bytes) : Prop :=
  ∃ f t, FrameAt reply f t ∧ 2 ≤ f.data.length

/-- The device-level outcomes the source names (R100). -/
inductive DeviceStatus where
  | ok
  | invalidData
  | unsupportedCmd
  | deviceError
deriving DecidableEq, Repr

/-- The status pair of a device-level outcome (R100); payload to the router. -/
def DeviceStatus.pair : DeviceStatus → Byte × Byte
  | .ok => (0x00#8, 0x00#8)
  | .invalidData => (0x08#8, 0x00#8)
  | .unsupportedCmd => (0x20#8, 0x00#8)
  | .deviceError => (0x40#8, 0x00#8)

end Sys2Proof.Machine

namespace Sys2Proof

open Sys2Proof.Machine

/-- What a conforming device does on command 6 with data `[a]`: it echoes the new address after its
status bytes, and its own polling address becomes `a`, masked to 4 bits (R101, R103). -/
def HandleResult.ConformsOnCommandSix (req : ParsedRequest) (h : HandleResult) : Prop :=
  ∀ a, req.command = 6#8 → req.data = [a] →
    (∃ f t s1 s2, FrameAt h.reply f t ∧ f.data = [s1, s2, a]) ∧
      h.after.pollingAddress.val = a.toNat % 16

end Sys2Proof
end

