-- ==== Sys2Proof/Certificates/Slice0/Obligations.lean ====
section
/-! DEFINITION. The claims about the machine, for the provers.

A claim that an operation completes writes the next state out as the old one with the named fields
replaced, so that it is the operation's frame too: whatever is not named is unchanged. Every operation
replaces `response`, and `activity` (what it did at the device port); both are the model's form of the
ports (log entries 9 and 10). That such a frame leaves `lock` as it was is log entry 11, and that it leaves
`params` as they were is log entry 8. -/

open Sys2Proof Sys2Proof.Machine

/-! ### Encoding -/

/-- Decoding the word of a well-formed operation gives the operation back, every operand at every value
(30_encoding.md sections 1 to 5 and 7; the words are log entry 2). -/
def Obligations.DecodeOfEncodeIsTheOperation : Prop :=
  ∀ i : Instr, i.wellFormed = true → decode (encode i) = .ok i

/-- A word that decodes is the word of a well-formed operation, but for the operands a reserved op
ignores (30_encoding.md sections 1 to 5 and 7; 60_exceptions.md section 2). The words are log entry 2, and
that a reserved op ignores its operands is log entry 17. -/
def Obligations.EncodeOfDecodeIsTheWord : Prop :=
  ∀ (w : PortWord) (i : Instr), decode w = .ok i →
    i.wellFormed = true ∧ (i ≠ .reserved0 → i ≠ .reservedF → encode i = w)

/-- The op code map of R58 with the operand types of R61 (the spec's own numbering, decision D3). The words
are log entry 2, and that a reserved op ignores its operands is log entry 17. -/
def Obligations.OpCodesNameTheOperations : Prop :=
  (∀ b, decode (.request 0x1#4 [.bytes b]) = .ok (.csum b)) ∧
  (∀ n, decode (.request 0x2#4 [.nat n]) = .ok (.preamble n)) ∧
  (∀ n, decode (.request 0x3#4 [.int n]) = .ok (.saddr n)) ∧
  (∀ u, decode (.request 0x4#4 [.bytes u]) = .ok (.laddr u)) ∧
  (∀ p st a c d, decode (.request 0x5#4 [.nat p, .int st, .bytes a, .int c, .bytes d]) =
    .ok (.encode p st a c d)) ∧
  (∀ raw, decode (.request 0x6#4 [.bytes raw]) = .ok (.decode raw)) ∧
  (∀ raw, decode (.request 0x7#4 [.bytes raw]) = .ok (.decodeRsp raw)) ∧
  (∀ fmt n, decode (.request 0x8#4 [.bit fmt, .int n]) = .ok (.cfgw fmt n)) ∧
  decode (.request 0x9#4 []) = .ok .cfgr ∧
  (∀ a c d, decode (.request 0xA#4 [.int a, .int c, .bytes d]) = .ok (.build a c d)) ∧
  (∀ a d, decode (.request 0xB#4 [.int a, .dev d]) = .ok (.register a d)) ∧
  (∀ o n, decode (.request 0xC#4 [.int o, .int n]) = .ok (.move o n)) ∧
  decode (.request 0xD#4 []) = .ok .scan ∧
  (∀ f h, decode (.request 0xE#4 [.bytes f, .optInt h]) = .ok (.transact f h)) ∧
  (∀ args, decode (.request 0x0#4 args) = .ok .reserved0) ∧
  (∀ args, decode (.request 0xF#4 args) = .ok .reservedF)

/-- Frames written out byte by byte from 30_encoding.md sections 1 and 2 and 95_test_vectors.md decode to
the frame row of their start delimiter; 0x03 is no delimiter. That a frame is a word with a hint beside it
is log entry 3. -/
def Obligations.WrittenOutFramesDecode : Prop :=
  decode (.frame [0xFF#8, 0xFF#8, 0xFF#8, 0xFF#8, 0xFF#8, 0x02#8, 0x83#8, 0x06#8, 0x01#8, 0x05#8, 0x83#8] none) =
    .ok (.frameShortReq ⟨5, [0x83#8], 0x06#8, [0x05#8], 0x83#8, []⟩ none) ∧
  decode (.frame [0x06#8, 0x80#8, 0x21#8, 0x02#8, 0x01#8, 0x02#8, 0xA6#8] none) =
    .ok (.frameShortRsp ⟨0, [0x80#8], 0x21#8, [0x01#8, 0x02#8], 0xA6#8, []⟩ none) ∧
  decode (.frame [0xFF#8, 0x82#8, 0xA6#8, 0x0A#8, 0x12#8, 0x34#8, 0x56#8, 0x00#8, 0x00#8, 0x5E#8] (some 3)) =
    .ok (.frameLongReq ⟨1, [0xA6#8, 0x0A#8, 0x12#8, 0x34#8, 0x56#8], 0x00#8, [], 0x5E#8, []⟩ (some 3)) ∧
  decode (.frame [0x86#8, 0xA6#8, 0x0A#8, 0x12#8, 0x34#8, 0x56#8, 0x00#8, 0x02#8, 0x00#8, 0x00#8, 0x58#8] none) =
    .ok (.frameLongRsp ⟨0, [0xA6#8, 0x0A#8, 0x12#8, 0x34#8, 0x56#8], 0x00#8, [0x00#8, 0x00#8], 0x58#8, []⟩ none) ∧
  decode (.frame [0xFF#8, 0xFF#8, 0x03#8, 0x83#8, 0x00#8, 0x00#8, 0x80#8] none) =
    .error (.frame .unrecognizedStart)

/-! ### Steps -/

/-- A step takes the oldest pending word whole and runs the operation it decodes to (20_memory.md section
4; the queue of inputs is log entry 1). -/
def Obligations.StepRunsTheDecodedOperation : Prop :=
  ∀ (s : State) (w : PortWord) (rest : List Input) (i : Instr),
    s.inputs = .word w :: rest → decode w = .ok i → step s = exec i { s with inputs := rest }

/-- A step with no operation to run. With nothing pending the state is held (R117; the queue is log entry
1). Bytes that are no frame complete as a garbled frame, and a request whose operands are not those of its
op is refused: these two clauses are the MODEL'S CHOICE, log entry 4 (and 3), since R94 says the first of
TRANSACT alone and R55 names no refusal. A device's own change reaches no block state (R29); that it is an
input between operations is log entry 16. -/
def Obligations.StepWithoutAnOperation : Prop :=
  (∀ s : State, s.inputs = [] → step s = .next s) ∧
  (∀ (s : State) (raw : Bytes) (hint : Option Int) (rest : List Input),
    s.inputs = .word (.frame raw hint) :: rest → (¬ ∃ f t, FrameAt raw f t) →
      step s = .next { s with
        inputs := rest, response := some ⟨.emptyGarbled, .bytes []⟩, activity := [] }) ∧
  (∀ (s : State) (op : BitVec 4) (args : List Arg) (rest : List Input),
    s.inputs = .word (.request op args) :: rest → (¬ ∃ i, decode (.request op args) = .ok i) →
      step s = .refused (.operandTypes op)) ∧
  (∀ (s : State) (d : DevId) (v : DeviceView) (rest : List Input),
    s.inputs = .deviceChange d v :: rest →
      ∃ t, step s = .next t ∧ t = { s with inputs := rest, devices := t.devices } ∧
        t.view d = v ∧ ∀ c, c ≠ d → t.view c = s.view c)

/-- The inputs are taken in the host's order, one a step, and no step changes the parameters (20_memory.md
section 4; the queue is log entry 1, the parameters log entry 8). -/
def Obligations.StepTakesTheOldestInput : Prop :=
  ∀ s t : State, step s = .next t → t.inputs = s.inputs.tail ∧ t.params = s.params

/-! ### Frame codec -/

/-- R64: the checksum engine's loop, order and even repeats, the sum that cancels, and that in a frame it
covers every byte from start through the last data byte. -/
def Obligations.ChecksumEngineFoldsXor : Prop :=
  (∀ (b : Bytes) (s : State), decode (.request 0x1#4 [.bytes b]) = .ok (.csum b) ∧
    exec (.csum b) s = .next { s with
      response := some ⟨.ok, .byte (b.foldl (· ^^^ ·) 0x00#8)⟩, activity := [] }) ∧
  (∀ b c : Bytes, b.Perm c → b.foldl (· ^^^ ·) 0x00#8 = c.foldl (· ^^^ ·) 0x00#8) ∧
  (∀ b : Bytes, (∀ x : Byte, b.count x % 2 = 0) → b.foldl (· ^^^ ·) 0x00#8 = 0x00#8) ∧
  (∀ b : Bytes, (b ++ [b.foldl (· ^^^ ·) 0x00#8]).foldl (· ^^^ ·) 0x00#8 = 0x00#8) ∧
  [0x02#8, 0x83#8, 0x06#8, 0x01#8, 0x05#8].foldl (· ^^^ ·) 0x00#8 = 0x83#8 ∧
  (∀ (p : Nat) (st : Byte) (address : Bytes) (cmd : Byte) (data : Bytes) (s : State), data.length ≤ 255 →
    ∃ f : Bytes, exec (.encode p st.toNat address cmd.toNat data) s = .next { s with
        response := some ⟨.ok, .bytes f⟩, activity := [] } ∧
      f.getLast? = some
        (([st] ++ address ++ [cmd, BitVec.ofNat 8 data.length] ++ data).foldl (· ^^^ ·) 0x00#8))

/-- R65: the preamble generator gives `n` bytes 0xFF, for any `n`; they are the preamble part of what ENCODE
emits. -/
def Obligations.PreambleGeneratorRepeatsFF : Prop :=
  ∀ (n : Nat) (s : State), decode (.request 0x2#4 [.nat n]) = .ok (.preamble n) ∧
    ∃ f : Bytes, exec (.preamble n) s = .next { s with response := some ⟨.ok, .bytes f⟩, activity := [] } ∧
      f.length = n ∧ (∀ b ∈ f, b = 0xFF#8) ∧
      ∀ (st : Byte) (address : Bytes) (cmd : Byte) (data : Bytes), data.length ≤ 255 → ∃ rest : Bytes,
        exec (.encode n st.toNat address cmd.toNat data) s = .next { s with
          response := some ⟨.ok, .bytes (f ++ st :: rest)⟩, activity := [] }

/-- The short address byte of any integer, negative ones too: bit 7 set, bits 6:4 clear, bits 3:0 the
remainder modulo 16, which is the low four bits of the two's complement (40_codec.md section 3; the mask
of negative integers is the spec's decision D5). -/
def Obligations.ShortAddressOfAnyInteger : Prop :=
  ∀ (n : Int) (s : State), ∃ a : Byte,
    exec (.saddr n) s = .next { s with response := some ⟨.ok, .bytes [a]⟩, activity := [] } ∧
      (a.toNat : Int) = 128 + n % 16 ∧ a.extractLsb' 0 4 = BitVec.ofInt 4 n ∧
      a.extractLsb' 4 3 = 0#3 ∧ a.extractLsb' 7 1 = 1#1

/-- The long address: the first five bytes with bit 7 of byte 0 set, or the marked placeholder
(40_codec.md section 3; the mark and the use of the leading five bytes are the spec's decision D11). -/
def Obligations.LongAddressForcesTheMasterFlag : Prop :=
  (∀ (b0 b1 b2 b3 b4 : Byte) (more : Bytes) (s : State),
    exec (.laddr (b0 :: b1 :: b2 :: b3 :: b4 :: more)) s = .next { s with
      response := some ⟨.ok, .longAddress [b0 ||| 0x80#8, b1, b2, b3, b4] false⟩, activity := [] }) ∧
  (∀ (u : Bytes) (s : State), u.length < 5 →
    exec (.laddr u) s = .next { s with
      response := some ⟨.ok, .longAddress [0x80#8, 0x00#8, 0x00#8, 0x00#8, 0x00#8] true⟩, activity := [] })

/-- ENCODE with operands in range lays the frame out and appends the XOR of everything from start through
the last data byte; out of range it completes with ARG_RANGE (40_codec.md section 4; the range check is
the spec's decision D6, no check of the delimiter is D36, and the unbounded preamble count is D7, log
entry 13). -/
def Obligations.EncodeLaysOutTheFrame : Prop :=
  (∀ (p : Nat) (st : Byte) (address : Bytes) (cmd : Byte) (data : Bytes) (s : State),
    data.length ≤ 255 →
      exec (.encode p st.toNat address cmd.toNat data) s = .next { s with
        response := some ⟨.ok, .bytes (encodedBytes p st address cmd data)⟩, activity := [] }) ∧
  (∀ (p : Nat) (start : Int) (address : Bytes) (command : Int) (data : Bytes) (s : State),
    (start < 0 ∨ 255 < start ∨ command < 0 ∨ 255 < command ∨ 255 < data.length) →
      exec (.encode p start address command data) s = .next { s with
        response := some ⟨.argRange, .none⟩, activity := [] })

/-- Whatever start and address are, the XOR of an encoded frame from start through checksum is zero
(40_codec.md section 4, checksum invariant of ENCODE). -/
def Obligations.EncodedFramesXorToZero : Prop :=
  ∀ (p : Nat) (start : Int) (address : Bytes) (command : Int) (data : Bytes) (s t : State) (f : Bytes),
    exec (.encode p start address command data) s = .next t → t.response = some ⟨.ok, .bytes f⟩ →
      xorFold (f.drop p) = 0x00#8

/-- DECODE gives exactly the frame at the head of its input, with any bytes after it ignored, and ABSENT
when there is none (40_codec.md section 5; the two checksum fields are the spec's decision D9, ignoring
what follows D8, the unbounded preamble count D7, log entry 13). -/
def Obligations.DecodeAcceptsExactlyTheFrames : Prop :=
  ∀ (raw : Bytes) (s : State),
    (∀ f t, FrameAt raw f t →
      exec (.decode raw) s = .next { s with response := some ⟨.ok, .frame f⟩, activity := [] }) ∧
    ((¬ ∃ f t, FrameAt raw f t) →
      exec (.decode raw) s = .next { s with response := some ⟨.absent, .none⟩, activity := [] })

/-- R72 and R73: what DECODE does on preambles, a start byte and the bytes after it. Any other start byte
is ABSENT; a recognized one selects the address width and is recorded; ABSENT when fewer than `w + 2`
bytes follow the start byte, or fewer than `byte_count + 1` follow the byte count, and OK otherwise. -/
def Obligations.DelimiterAndLengthDecideDecode : Prop :=
  ∀ (n : Nat) (st : Byte) (rest : Bytes) (s : State), st ≠ 0xFF#8 →
    let raw := List.replicate n 0xFF#8 ++ st :: rest
    let absent := Host.Outcome.next { s with response := some ⟨.absent, .none⟩, activity := [] }
    ((¬ ∃ w, hasWidth st w) → exec (.decode raw) s = absent) ∧
    ∀ w, hasWidth st w →
      (rest.length < w + 2 → exec (.decode raw) s = absent) ∧
      ∀ cmd bc body, rest.drop w = cmd :: bc :: body →
        (body.length < bc.toNat + 1 → exec (.decode raw) s = absent) ∧
        (bc.toNat + 1 ≤ body.length → ∃ f : ParsedFrame,
          exec (.decode raw) s = .next { s with response := some ⟨.ok, .frame f⟩, activity := [] } ∧
            f.start = st ∧ f.address = rest.take w ∧ f.address.length = w ∧ f.command = cmd ∧
            f.byteCount = bc ∧ f.data = body.take bc.toNat)

/-- R51: `csum_ok` is `valid_csum`, the XOR of every byte from start through the checksum; DECODE does not
require it; every frame ENCODE returns has it; preambles are not covered. -/
def Obligations.ChecksumFlagIsFrameValidity : Prop :=
  (∀ raw f t, FrameAt raw f t → (f.csumOk = true ↔ validChecksum raw f)) ∧
  (∀ raw f t (s : State), FrameAt raw f t →
    exec (.decode raw) s = .next { s with response := some ⟨.ok, .frame f⟩, activity := [] }) ∧
  (∀ p start address command data (s t : State) f, exec (.encode p start address command data) s = .next t →
    t.response = some ⟨.ok, .bytes f⟩ → xorFold (f.drop p) = 0x00#8)

/-- DECODE_RSP splits two status bytes and the payload off the data when there are two bytes at least, and
leaves all three absent otherwise; it is ABSENT where DECODE is (40_codec.md section 5, DECODE_RSP; the
absent payload is the spec's decision D10). -/
def Obligations.DecodeResponseSplitsTheData : Prop :=
  ∀ (raw : Bytes) (s : State),
    (∀ f t, FrameAt raw f t →
      (∀ s1 s2 payload, f.data = s1 :: s2 :: payload →
        exec (.decodeRsp raw) s = .next { s with
          response := some ⟨.ok, .response ⟨f, some s1, some s2, some payload⟩⟩, activity := [] }) ∧
      (f.data.length < 2 →
        exec (.decodeRsp raw) s = .next { s with
          response := some ⟨.ok, .response ⟨f, none, none, none⟩⟩, activity := [] })) ∧
    ((¬ ∃ f t, FrameAt raw f t) →
      exec (.decodeRsp raw) s = .next { s with response := some ⟨.absent, .none⟩, activity := [] })

/-- The round trip of the codec: what ENCODE emits for a recognized start and an address of its width,
DECODE reads back field by field, with any bytes after it (40_codec.md section 6; the unbounded preamble
count is the spec's decision D7, log entry 13). -/
def Obligations.EncodeThenDecodeReturnsEveryField : Prop :=
  ∀ (p : Nat) (st : Byte) (address : Bytes) (cmd : Byte) (data trailing : Bytes) (s s' : State),
    hasWidth st address.length → data.length ≤ 255 →
      ∃ frame : Bytes, ∃ f : ParsedFrame,
        exec (.encode p st.toNat address cmd.toNat data) s = .next { s with
          response := some ⟨.ok, .bytes frame⟩, activity := [] } ∧
        exec (.decode (frame ++ trailing)) s' = .next { s' with
          response := some ⟨.ok, .frame f⟩, activity := [] } ∧
        f.preambles = p ∧ f.start = st ∧ f.address = address ∧ f.command = cmd ∧
        f.byteCount.toNat = data.length ∧ f.data = data ∧ frame.getLast? = some f.rxChecksum ∧
        f.csumOk = true

/-- The codec operations read no state and write none, and call no device: from every two states they
give the same response (10_state.md section 1; 70_reset_and_hazards.md section 1). -/
def Obligations.CodecOperationsDependOnNoState : Prop :=
  ∀ i : Instr, i.isCodec = true → ∃ r : Response,
    ∀ s : State, exec i s = .next { s with response := some r, activity := [] }

/-! ### Request builder -/

/-- CFGW writes both fields, the count clamped to 3..7, and no other bit (41_builder.md section 1; the
layout of CFG is the spec's decision D12; the reserved bits are log entry 19). -/
def Obligations.ConfigWriteClampsThePreambles : Prop :=
  ∀ (fmt : BitVec 1) (n : Int) (s : State), ∃ c : BitVec 8,
    exec (.cfgw fmt n) s = .next { s with cfg := c, response := some ⟨.ok, .none⟩, activity := [] } ∧
      cfgFmt c = fmt ∧ ((cfgPre c).toNat : Int) = min (max n 3) 7 ∧ cfgReserved c = cfgReserved s.cfg

/-- CFGR reads `(PRE << 4) | FMT` with the reserved bits 0, and changes nothing; where CFG is legal, the
byte is CFG itself and one of ten (41_builder.md section 1; the read is the spec's decision D12; the
reserved bits are log entry 19). -/
def Obligations.ConfigReadGivesBothFields : Prop :=
  ∀ s : State, ∃ b : Byte,
    exec .cfgr s = .next { s with response := some ⟨.ok, .byte b⟩, activity := [] } ∧
      b.toNat = 16 * (cfgPre s.cfg).toNat + (cfgFmt s.cfg).toNat ∧ cfgReserved b = 0#4 ∧
      (cfgLegal s.cfg → b = s.cfg ∧
        b ∈ [0x30#8, 0x31#8, 0x40#8, 0x41#8, 0x50#8, 0x51#8, 0x60#8, 0x61#8, 0x70#8, 0x71#8])

/-- BUILD in short mode: start 0x02, the short address, and `PRE` preambles (41_builder.md section 2). -/
def Obligations.BuildInShortMode : Prop :=
  ∀ (address : Int) (cmd : Byte) (data : Bytes) (s : State), data.length ≤ 255 → cfgFmt s.cfg = 0#1 →
    exec (.build address cmd.toNat data) s = .next { s with
      response := some ⟨.ok, .bytes (encodedBytes (cfgPre s.cfg).toNat 0x02#8
        [BitVec.ofInt 8 (128 + address % 16)] cmd data)⟩, activity := [] }

/-- BUILD in long mode with a scanned device at the key: start 0x82 and that device's unique id with bit 7
of byte 0 set, as the last scan left it (41_builder.md section 2; the scan cache is the spec's decision
D15). -/
def Obligations.BuildInLongMode : Prop :=
  ∀ (address : Int) (cmd : Byte) (data : Bytes) (s : State) (e : Summary),
    data.length ≤ 255 → cfgFmt s.cfg = 1#1 → ascending s.scanCache → e ∈ s.scanCache →
    (e.address.val : Int) = address % 16 →
      exec (.build address cmd.toNat data) s = .next { s with
        response := some ⟨.ok, .bytes (encodedBytes (cfgPre s.cfg).toNat 0x82#8
          ((e.uniqueId[0] ||| 0x80#8) :: e.uniqueId.toList.drop 1) cmd data)⟩, activity := [] }

/-- BUILD in long mode with no scanned device at the key: RESOLVE_ERR and no frame, or the short-mode frame
where the parameter says so (41_builder.md section 2; the spec's decision D16). -/
def Obligations.BuildWithoutAScannedDevice : Prop :=
  ∀ (address : Int) (cmd : Byte) (data : Bytes) (s : State),
    data.length ≤ 255 → cfgFmt s.cfg = 1#1 → (∀ e ∈ s.scanCache, (e.address.val : Int) ≠ address % 16) →
      (s.params.buildFallbackShort = false →
        exec (.build address cmd.toNat data) s = .next { s with
          response := some ⟨.resolveErr, .none⟩, activity := [] }) ∧
      (s.params.buildFallbackShort = true →
        exec (.build address cmd.toNat data) s = .next { s with
          response := some ⟨.ok, .bytes (encodedBytes (cfgPre s.cfg).toNat 0x02#8
            [BitVec.ofInt 8 (128 + address % 16)] cmd data)⟩, activity := [] })

/-- BUILD checks its operands before it resolves the address (41_builder.md section 2; 60_exceptions.md
section 2; the spec's decisions D6 and D38). -/
def Obligations.BuildChecksRangesFirst : Prop :=
  ∀ (address command : Int) (data : Bytes) (s : State),
    (command < 0 ∨ 255 < command ∨ 255 < data.length) →
      exec (.build address command data) s = .next { s with
        response := some ⟨.argRange, .none⟩, activity := [] }

/-- Every frame BUILD emits from a legal CFG decodes to what was asked for: 3 to 7 preambles, the command,
the data, a good checksum, bit 7 of the first address byte set, and the address asked for: start 0x02
with the short address of the integer, in short mode, or in long mode where the parameter says so and no
scanned device is at the key; or, in long mode, start 0x82 with the unique id that the last scan left at
the key, bit 7 of byte 0 set (41_builder.md section 2; the scan cache is the spec's decision D15, the
fallback D16). -/
def Obligations.BuiltFramesDecodeBack : Prop :=
  ∀ (address command : Int) (data frame : Bytes) (s t : State), cfgLegal s.cfg →
    exec (.build address command data) s = .next t → t.response = some ⟨.ok, .bytes frame⟩ →
      ∃ f, FrameAt frame f [] ∧ f.preambles = (cfgPre s.cfg).toNat ∧ 3 ≤ f.preambles ∧ f.preambles ≤ 7 ∧
        ((f.start = 0x02#8 ∧ f.address = [BitVec.ofInt 8 (128 + address % 16)] ∧
            (cfgFmt s.cfg = 0#1 ∨ (s.params.buildFallbackShort = true ∧
              ∀ e ∈ s.scanCache, (e.address.val : Int) ≠ address % 16))) ∨
          (f.start = 0x82#8 ∧ cfgFmt s.cfg = 1#1 ∧ ∃ e ∈ s.scanCache, (e.address.val : Int) = address % 16 ∧
            f.address = (e.uniqueId[0] ||| 0x80#8) :: e.uniqueId.toList.drop 1)) ∧
        (∃ a more, f.address = a :: more ∧ a.extractLsb' 7 1 = 1#1) ∧
        (f.command.toNat : Int) = command ∧ f.data = data ∧ f.csumOk = true

/-! ### Router -/

/-- REGISTER binds the device at `address mod 16`, whatever was there, leaves every other slot, and calls
no device (42_router.md section 1; no device call is the spec's decision D25). -/
def Obligations.RegisterBindsOneSlot : Prop :=
  ∀ (address : Int) (d : DevId) (s : State), ∃ t : State,
    exec (.register address d) s = .next t ∧
      t = { s with reg := t.reg, response := some ⟨.ok, .none⟩, activity := [] } ∧
      ∀ k : Key, t.readReg k = if (k.val : Int) = address % 16 then some d else s.readReg k

/-- MOVE re-keys the device at the old key and sets its own polling address, in one step: the new slot
holds it, the old slot is empty unless it is the new one, every other slot and every other device is as
it was (42_router.md section 1; an occupied new key is the spec's decision D26). -/
def Obligations.MoveRekeysTheDevice : Prop :=
  ∀ (old new : Int) (s : State) (ko kn : Key) (d : DevId),
    (ko.val : Int) = old % 16 → (kn.val : Int) = new % 16 → s.readReg ko = some d →
      ∃ t : State, exec (.move old new) s = .next t ∧
        t = { s with
          reg := t.reg, devices := t.devices, response := some ⟨.ok, .none⟩,
          activity := [.setPollingAddress d kn] } ∧
        (∀ k : Key, t.readReg k = if k = kn then some d else if k = ko then none else s.readReg k) ∧
        t.view d = { s.view d with pollingAddress := kn } ∧ ∀ c, c ≠ d → t.view c = s.view c

/-- MOVE from an empty key completes with MOVE_EMPTY and changes nothing (42_router.md section 1; the
spec's decision D26). -/
def Obligations.MoveFromAnEmptyKey : Prop :=
  ∀ (old new : Int) (s : State) (ko : Key), (ko.val : Int) = old % 16 → s.readReg ko = none →
    exec (.move old new) s = .next { s with response := some ⟨.moveEmpty, .none⟩, activity := [] }

/-- Where every registered device's `summary` call returns, SCAN lists exactly the occupied slots,
strictly ascending, each with what its device shows now; the cache becomes that list; each record is one
`summary` call, then the wait (42_router.md section 1; the address being the key is the spec's decision
D27). That `summary` has no side effect is log entry 6, and a call that does not return is log entry 7. -/
def Obligations.ScanListsTheRegistry : Prop :=
  ∀ s : State, (∀ k d, s.readReg k = some d → (s.view d).summaryReturns = true) → ∃ l : List Summary,
    exec .scan s = .next { s with
      scanCache := l, response := some ⟨.ok, .summaries l⟩,
      activity := (l.filterMap fun e => (s.readReg e.address).map Activity.summary) ++ [.wait] } ∧
    ascending l ∧
    ∀ e : Summary, e ∈ l ↔ ∃ d, s.readReg e.address = some d ∧ e.uniqueId = (s.view d).uniqueId ∧
      e.serialHex = (s.view d).serialHex ∧ e.model = (s.view d).model ∧
      e.manufacturer = (s.view d).manufacturer

/-- Bytes that are no frame, put on the bus, complete with EMPTY_GARBLED and no bytes, without a wait
(42_router.md section 3; the status is the spec's decision D4). -/
def Obligations.GarbledFramesAreDropped : Prop :=
  ∀ (raw : Bytes) (hint : Option Int) (s : State), (¬ ∃ f t, FrameAt raw f t) →
    exec (.transact raw hint) s = .next { s with
      response := some ⟨.emptyGarbled, .bytes []⟩, activity := [] }

/-- A frame on the bus that resolves to no key completes with EMPTY_NO_ROUTE, where the devices asked
return (log entry 7): only a long frame without a hint, or one no device answers to. Under HINT it only
waits; under DIRECTORY every registered device is asked before the wait (42_router.md sections 2 and 3;
45_device_port.md section 1; the spec's decisions D4, D18, D19). The calls recorded are the model's
reading, log entry 21, and that they have no side effect is log entry 6. That the FRAME_* rows are
transactions too is log entry 3. -/
def Obligations.UnroutedFramesGetNoRoute : Prop :=
  ∀ (i : Instr) (raw : Bytes) (hint : Option Int) (s : State) (p : ParsedFrame) (t : Bytes),
    i.busFrame = some (raw, hint) → FrameAt raw p t → AskedReturn s p →
    (∀ k, ¬ Resolves s p hint k) →
      p.address.length = 5 ∧ (s.params.longRoute = .hint → hint = none) ∧
      exec i s = .next { s with
        response := some ⟨.emptyNoRoute, .bytes []⟩, activity := resolutionCalls s p none ++ [.wait] }

/-- A frame on the bus whose key has no device completes with EMPTY_MISS and only waits: it is a short
frame, or one under HINT, since a key the directory gives has a device (42_router.md sections 2 and 3;
45_device_port.md section 1; the status is the spec's decision D4). That the FRAME_* rows are
transactions too is log entry 3. -/
def Obligations.FramesToAnEmptySlotMiss : Prop :=
  ∀ (i : Instr) (raw : Bytes) (hint : Option Int) (s : State) (p : ParsedFrame) (t : Bytes) (k : Key),
    i.busFrame = some (raw, hint) → FrameAt raw p t → Resolves s p hint k → s.readReg k = none →
      (p.address.length = 1 ∨ s.params.longRoute = .hint) ∧
      exec i s = .next { s with response := some ⟨.emptyMiss, .bytes []⟩, activity := [.wait] }

/-- A frame on the bus that reaches a device, where the calls it makes return: the `summary` calls of a
directory lookup up to that device and no other (none for a short frame or under HINT), one `handle` call
with the six fields of the request, then the reply re-framed with the request's preamble count, or
EMPTY_DEVICE where the reply is no frame. The reply is whatever the call brings back, the supplied result
or the next free value. No block state changes; the called device shows what the call left, every other
device what it showed (42_router.md section 3; 45_device_port.md section 1; the re-framing is the spec's
decision D22, the bad reply D21). The handle result is log entry 5, a call that does not return log entry
7, the calls recorded log entry 21 (without side effects, log entry 6), that the FRAME_* rows are
transactions too log entry 3, and that a call changes no other device log entry 24. -/
def Obligations.RoutedFramesReachOneDevice : Prop :=
  ∀ (i : Instr) (raw : Bytes) (hint : Option Int) (s : State) (p : ParsedFrame) (t : Bytes) (k : Key)
    (d : DevId) (h : HandleResult), i.busFrame = some (raw, hint) → FrameAt raw p t → AskedReturn s p →
    Resolves s p hint k → s.readReg k = some d → s.nextHandle = .returns h →
      ∃ (u : State) (st : Status) (out : Bytes), exec i s = .next u ∧
        u = { s with
          devices := u.devices, handleResults := s.handleResults.tail,
          draws := if s.handleResults = [] then s.draws + 1 else s.draws,
          response := some ⟨st, .bytes out⟩,
          activity := resolutionCalls s p (some k) ++
            [.handle d ⟨p.preambles, p.start, p.address, p.command, p.byteCount, p.data⟩, .wait] } ∧
        (u.view d = h.after ∧ ∀ c, c ≠ d → u.view c = s.view c) ∧
        (∀ r t', FrameAt h.reply r t' →
          st = .ok ∧ out = encodedBytes p.preambles r.start r.address r.command r.data) ∧
        ((¬ ∃ r t', FrameAt h.reply r t') → st = .emptyDevice ∧ out = [])

/-- The outcomes of `handle` calls that the outside supplies are used oldest first; without one the outcome
is the free value of the draw counter, and each free value is used once (45_device_port.md section 1; log
entries 5 and 7). -/
def Obligations.HandleResultsAreTakenInOrder : Prop :=
  (∀ (s : State) (h : HandleOutcome) (rest : List HandleOutcome), s.handleResults = h :: rest →
    s.nextHandle = h ∧
      ∀ d v, (s.afterHandle d v).handleResults = rest ∧ (s.afterHandle d v).draws = s.draws) ∧
  (∀ s : State, s.handleResults = [] →
    s.nextHandle = Config.freeHandleOutcome s.draws ∧
      ∀ d v, (s.afterHandle d v).handleResults = [] ∧ (s.afterHandle d v).draws = s.draws + 1)

/-- Under HINT routing, what a long frame's address bytes are plays no part in which device is called: the
transactions of two long frames with the same hint are routed alike (42_router.md sections 2 and 3; the
spec's decision D17). -/
def Obligations.HintRoutingIgnoresTheAddress : Prop :=
  ∀ (s : State) (p q : ParsedFrame) (raw raw' t t' : Bytes) (hint : Option Int),
    FrameAt raw p t → FrameAt raw' q t' → p.address.length = 5 → q.address.length = 5 →
    s.params.longRoute = .hint →
            SameRoute (exec (.transact raw hint) s) (exec (.transact raw' hint) s)

/-- The hint is ignored for short frames and under DIRECTORY routing: the whole outcome is the same for
every two hints (42_router.md section 2; the spec's decision D18). -/
def Obligations.HintIsIgnoredWhereAnotherKeyDecides : Prop :=
  ∀ (raw : Bytes) (h1 h2 : Option Int) (s : State),
    (s.params.longRoute = .directory ∨ ∃ p t, FrameAt raw p t ∧ p.address.length = 1) →
      exec (.transact raw h1) s = exec (.transact raw h2) s

/-- A directory lookup asks the devices by rising key and no further than the first that answers
(42_router.md section 2; the calls recorded are log entry 21). -/
def Obligations.DirectoryAsksUpToTheFirstMatch : Prop :=
  ∀ (raw : Bytes) (hint : Option Int) (s u : State) (p : ParsedFrame) (t : Bytes) (k : Key),
    FrameAt raw p t → p.address.length = 5 → s.params.longRoute = .directory → Resolves s p hint k →
    exec (.transact raw hint) s = .next u →
      u.activity.filter (fun a => match a with | .summary _ => true | _ => false) =
        ((List.finRange 16).filter (· ≤ k)).filterMap fun j => (s.readReg j).map Activity.summary

/-- No checksum is checked: two frames that differ only in their checksum byte have the same transaction
(42_router.md section 3). -/
def Obligations.TransactIgnoresTheChecksum : Prop :=
  ∀ (s : State) (f : WireFrame) (rx : Byte) (start : Byte) (hint : Option Int),
    hasWidth start f.address.length → f.data.length ≤ 255 →
      exec (.transact (Instr.busFrame.wire start { f with checksum := rx }) hint) s =
        exec (.transact (Instr.busFrame.wire start f) hint) s

/-- Bytes after a frame's checksum are ignored by DECODE, DECODE_RSP and TRANSACT (40_codec.md section 5;
42_router.md section 3; the spec's decision D8). -/
def Obligations.TrailingBytesAreIgnored : Prop :=
  ∀ (raw more : Bytes) (hint : Option Int) (s : State), (∃ f t, FrameAt raw f t) →
    exec (.decode (raw ++ more)) s = exec (.decode raw) s ∧
    exec (.decodeRsp (raw ++ more)) s = exec (.decodeRsp raw) s ∧
    exec (.transact (raw ++ more) hint) s = exec (.transact raw hint) s

/-- The response of a transaction is a frame with the request's preamble count and a good checksum,
whatever the reply's were (42_router.md section 3; the spec's decision D22; the reply is the handle result
of log entry 5). -/
def Obligations.ResponsesKeepTheRequestFraming : Prop :=
  ∀ (raw out : Bytes) (hint : Option Int) (s u : State),
    exec (.transact raw hint) s = .next u → u.response = some ⟨.ok, .bytes out⟩ →
      ∃ p t h r t' f, FrameAt raw p t ∧ s.nextHandle = .returns h ∧ FrameAt h.reply r t' ∧ FrameAt out f [] ∧
        f.preambles = p.preambles ∧ f.start = r.start ∧ f.address = r.address ∧ f.command = r.command ∧
        f.data = r.data ∧ f.csumOk = true

/-- Where the calls it makes return, with a conforming reply, a routed transaction is OK, and DECODE_RSP
of its bytes gives the reply back: start, address, command, data, both status bytes and the payload, with
the request's preamble count and a good checksum (45_device_port.md section 2; 30_encoding.md section 2;
42_router.md section 3). The reply is the handle result of log entry 5, and a call that does not return is
log entry 7. -/
def Obligations.ConformingRepliesComeBackWhole : Prop :=
  ∀ (raw : Bytes) (hint : Option Int) (s v : State) (p : ParsedFrame) (t : Bytes) (k : Key) (d : DevId)
    (h : HandleResult), FrameAt raw p t → AskedReturn s p → Resolves s p hint k → s.readReg k = some d →
    s.nextHandle = .returns h → ConformingReply h.reply →
      ∃ (u : State) (out : Bytes) (f r : ParsedFrame) (t' : Bytes) (s1 s2 : Byte) (payload : Bytes),
        exec (.transact raw hint) s = .next u ∧ u.response = some ⟨.ok, .bytes out⟩ ∧
        FrameAt h.reply r t' ∧ r.data = s1 :: s2 :: payload ∧
        exec (.decodeRsp out) v = .next { v with
          response := some ⟨.ok, .response ⟨f, some s1, some s2, some payload⟩⟩, activity := [] } ∧
        f.preambles = p.preambles ∧ f.start = r.start ∧ f.address = r.address ∧ f.command = r.command ∧
        f.data = r.data ∧ f.csumOk = true

/-- Routing stays as it was over a transaction, whatever the called device's own polling address became:
only REGISTER and MOVE re-key (42_router.md section 3; 70_reset_and_hazards.md section 3; the spec's
decision D24). That the FRAME_* rows are transactions too is log entry 3. -/
def Obligations.TransactionsDoNotRekey : Prop :=
  ∀ (i : Instr) (raw : Bytes) (hint hint' : Option Int) (s u : State) (q : ParsedFrame) (raw' t' : Bytes)
    (k : Key), i.busFrame = some (raw, hint) → exec i s = .next u → FrameAt raw' q t' →
    (s.params.longRoute = .hint ∨ q.address.length = 1) →
      (Resolves u q hint' k ↔ Resolves s q hint' k) ∧ u.readReg k = s.readReg k

/-- R60: the reserved and forced bits on the wire. SADDR writes 000 in bits 6:4 and 1 in bit 7; DECODE
passes the address through; the router takes only bits 3:0 of a short address, so that two short frames
which agree there are routed alike; LADDR forces bit 7 of byte 0, and under DIRECTORY two long frames
which differ there alone are routed alike; an unrecognized start byte makes DECODE absent; command, byte
count and data may be anything. -/
def Obligations.ReservedAndForcedBitsOnTheWire : Prop :=
  (∀ (n : Int) (s t : State) (a : Bytes), exec (.saddr n) s = .next t → t.response = some ⟨.ok, .bytes a⟩ →
    ∃ b, a = [b] ∧ b.extractLsb' 4 3 = 0#3 ∧ b.extractLsb' 7 1 = 1#1) ∧
  (∀ (s : State) (p q : ParsedFrame) (raw raw' t t' : Bytes) (hint : Option Int) (a b : Byte),
    FrameAt raw p t → FrameAt raw' q t' → p.address = [a] → q.address = [b] →
        a.extractLsb' 0 4 = b.extractLsb' 0 4 →
      SameRoute (exec (.transact raw hint) s) (exec (.transact raw' hint) s)) ∧
  (∀ (u a : Bytes) (g : Bool) (s t : State), exec (.laddr u) s = .next t →
    t.response = some ⟨.ok, .longAddress a g⟩ → ∃ b more, a = b :: more ∧ b.extractLsb' 7 1 = 1#1) ∧
  (∀ (s : State) (p q : ParsedFrame) (raw raw' t t' : Bytes) (hint : Option Int) (b : Byte) (more : Bytes),
    FrameAt raw p t → FrameAt raw' q t' → s.params.longRoute = .directory → more.length = 4 →
    p.address = b :: more → q.address = (b ^^^ 0x80#8) :: more →
            SameRoute (exec (.transact raw hint) s) (exec (.transact raw' hint) s)) ∧
  (∀ (n : Nat) (st : Byte) (rest : Bytes) (s : State), st ≠ 0xFF#8 → (¬ ∃ w, hasWidth st w) →
    exec (.decode (List.replicate n 0xFF#8 ++ st :: rest)) s =
      .next { s with response := some ⟨.absent, .none⟩, activity := [] }) ∧
  (∀ (n : Nat) (st : Byte) (address : Bytes) (cmd : Byte) (data : Bytes) (rx : Byte) (s : State),
    hasWidth st address.length → data.length ≤ 255 → ∃ f : ParsedFrame,
      exec (.decode (List.replicate n 0xFF#8 ++ [st] ++ address ++
        [cmd, BitVec.ofNat 8 data.length] ++ data ++ [rx])) s =
        .next { s with response := some ⟨.ok, .frame f⟩, activity := [] } ∧
      f.address = address ∧ f.command = cmd ∧ f.byteCount.toNat = data.length ∧ f.data = data)

/-! ### The whole machine -/

/-- The reserved op codes complete with ILLEGAL_OP whatever operands stand beside them, and change no
state, call no device and do not wait (60_exceptions.md section 2; the spec's decision D3). That the
operands are ignored is log entry 17. -/
def Obligations.ReservedOpsAreIllegal : Prop :=
  (∀ (s : State) (op : BitVec 4) (args : List Arg) (rest : List Input), (op = 0x0#4 ∨ op = 0xF#4) →
    s.inputs = .word (.request op args) :: rest →
      step s = .next { s with
        inputs := rest, response := some ⟨.illegalOp, .none⟩, activity := [] }) ∧
  (∀ s : State, exec .reserved0 s = .next { s with response := some ⟨.illegalOp, .none⟩, activity := [] }) ∧
  (∀ s : State, exec .reservedF s = .next { s with response := some ⟨.illegalOp, .none⟩, activity := [] })

/-- Every operation ends, in every state in which the device calls it makes return, with exactly one
response, as in every state if it is neither SCAN nor a transaction. If a call it makes never returns,
which no conforming device's does, the block is stuck in that call (30_encoding.md section 4;
60_exceptions.md section 4; 93_implementation_defined.md section 1, U6). The stuck block is log entry 7,
the devices asked log entry 21, and that the FRAME_* rows are transactions log entry 3. -/
def Obligations.OperationsCompleteUnlessADeviceHangs : Prop :=
  (∀ (i : Instr) (s : State), DeviceCallsReturn i s →
    ∃ (t : State) (r : Response), exec i s = .next t ∧ t.response = some r) ∧
  (∀ (i : Instr) (s : State), i ≠ .scan → i.busFrame = none →
    ∃ (t : State) (r : Response), exec i s = .next t ∧ t.response = some r) ∧
  (∀ (i : Instr) (s : State), ¬ DeviceCallsReturn i s →
    (∃ d, ((i = .scan ∧ ∃ k, s.readReg k = some d) ∨
        ∃ raw hint p t, i.busFrame = some (raw, hint) ∧ FrameAt raw p t ∧ Asked s p d) ∧
      (s.view d).summaryReturns = false ∧ exec i s = .fault (.summaryNeverReturns d)) ∨
    (∃ raw hint p t k d, i.busFrame = some (raw, hint) ∧ FrameAt raw p t ∧ Resolves s p hint k ∧
      s.readReg k = some d ∧ s.nextHandle = .never ∧ exec i s = .fault (.handleNeverReturns d)))

/-- R24: only REGISTER and MOVE write `REG`, so a transaction does not, whatever its command; no operation
but these, SCAN and the transactions reads it: with another registry in its place they do the same. SCAN
reads it, and so do transactions, directory resolution among them: with another registry the response
differs. -/
def Obligations.RegistryWritersAndReaders : Prop :=
  (∀ (i : Instr) (s t : State), exec i s = .next t → (∀ a d, i ≠ .register a d) → (∀ o n, i ≠ .move o n) →
    t.reg = s.reg) ∧
  (∀ (i : Instr) (s t : State) (r : Vector (Option DevId) 16), exec i s = .next t →
    (∀ a d, i ≠ .register a d) → (∀ o n, i ≠ .move o n) → i ≠ .scan → i.busFrame = none →
      exec i { s with reg := r } = .next { t with reg := r }) ∧
  (∃ (s t u : State) (r : Vector (Option DevId) 16), exec .scan s = .next t ∧
    exec .scan { s with reg := r } = .next u ∧ t.response ≠ u.response) ∧
  ∀ (way : LongRoute) (width : Nat), width = 1 ∨ width = 5 →
    ∃ (raw : Bytes) (p : ParsedFrame) (hint : Option Int) (s t u : State) (r : Vector (Option DevId) 16),
      FrameAt raw p [] ∧ p.address.length = width ∧ s.params.longRoute = way ∧
      exec (.transact raw hint) s = .next t ∧ exec (.transact raw hint) { s with reg := r } = .next u ∧
      t.response ≠ u.response

/-- Only CFGW writes `CFG`, only SCAN writes `SCAN_CACHE`, and only BUILD, and only in long mode, reads
`SCAN_CACHE` (10_state.md sections 2 and 4; the cache is the spec's decision D15). That no operation leaves
`LOCK` changed is the model's own reading, log entry 11 (DEDUCED): 10_state.md section 5 says only that
the source holds it for the length of a lookup and that it has no architectural effect. -/
def Obligations.ConfigAndCacheWriters : Prop :=
  (∀ (i : Instr) (s t : State), exec i s = .next t →
    ((∀ f n, i ≠ .cfgw f n) → t.cfg = s.cfg) ∧ (i ≠ .scan → t.scanCache = s.scanCache) ∧
      t.lock = s.lock) ∧
  (∀ (i : Instr) (s t : State) (l : List Summary), exec i s = .next t → i ≠ .scan →
    ((∀ a c d, i ≠ .build a c d) ∨ cfgFmt s.cfg = 0#1) →
      exec i { s with scanCache := l } = .next { t with scanCache := l }) ∧
  (∀ (s : State) (l : List Summary), exec .scan { s with scanCache := l } = exec .scan s)

/-- An operation that ends with a status other than OK has written no block state, and unless the status
is EMPTY_DEVICE every device shows what it showed (60_exceptions.md section 1; the spec's decision D31).
That `LOCK` is as it was is log entry 11. -/
def Obligations.FailedOperationsWriteNothing : Prop :=
  ∀ (i : Instr) (s t : State) (r : Response), exec i s = .next t → t.response = some r → r.status ≠ .ok →
    sameBlockState s t ∧ (r.status ≠ .emptyDevice → t.devices = s.devices)

/-- An operation that ends with a status other than OK returns no result, but for the empty byte result of
the EMPTY statuses of a transaction (30_encoding.md section 4; 60_exceptions.md section 1; the statuses
are the spec's decision D4). That the FRAME_* rows are transactions too is log entry 3. -/
def Obligations.FailedOperationsReturnNoResult : Prop :=
  ∀ (i : Instr) (s t : State) (r : Response), exec i s = .next t → t.response = some r → r.status ≠ .ok →
    (i.busFrame = none → r.result = .none) ∧ (i.busFrame ≠ none → r.result = .bytes [])

/-- Which operation raises which status, and the code of each status: 0 to 9, so 10 to 15 are never
produced (60_exceptions.md section 1; the numbering is the spec's decision D4). That the FRAME_* rows are
transactions too is log entry 3. -/
def Obligations.StatusesOfTheOperations : Prop :=
  (∀ (i : Instr) (s t : State) (r : Response), exec i s = .next t → t.response = some r →
    (r.status = .absent → ∃ raw, i = .decode raw ∨ i = .decodeRsp raw) ∧
    (r.status = .resolveErr → (∃ a c d, i = .build a c d) ∧ s.params.buildFallbackShort = false ∧
      cfgFmt s.cfg = 1#1) ∧
    (r.status = .argRange → (∃ p st a c d, i = .encode p st a c d) ∨ ∃ a c d, i = .build a c d) ∧
    (r.status = .moveEmpty → ∃ o n, i = .move o n) ∧
    (r.status = .illegalOp ↔ i = .reserved0 ∨ i = .reservedF) ∧
    (r.status = .emptyGarbled ∨ r.status = .emptyNoRoute ∨ r.status = .emptyMiss ∨ r.status = .emptyDevice →
      i.busFrame ≠ none)) ∧
  (∀ a : Status, a.code.toNat < 10) ∧ (∀ a b : Status, a.code = b.code → a = b) ∧
  Status.ok.code = 0#4 ∧ Status.absent.code = 1#4 ∧ Status.emptyGarbled.code = 2#4 ∧
  Status.emptyNoRoute.code = 3#4 ∧ Status.emptyMiss.code = 4#4 ∧ Status.emptyDevice.code = 5#4 ∧
  Status.resolveErr.code = 6#4 ∧ Status.argRange.code = 7#4 ∧ Status.moveEmpty.code = 8#4 ∧
  Status.illegalOp.code = 9#4

/-- Device calls and waits: an operation calls `handle` once at most, and then right before its wait; it
waits once at most, at its very end; it waits exactly if it is SCAN or a transaction whose frame decodes.
Only SCAN and a directory lookup call `summary`, and only MOVE calls `set_polling_address`, on the device
at its old key with its new one (70_reset_and_hazards.md section 4; 20_memory.md section 4;
45_device_port.md section 1; the spec's decisions D2 and D29). The record is log entry 10, and that the
FRAME_* rows are transactions too is log entry 3. -/
def Obligations.DeviceCallsAndWaits : Prop :=
  ∀ (i : Instr) (s t : State), exec i s = .next t →
    ∃ (calls h w : List Activity), t.activity = calls ++ h ++ w ∧
      (∀ a ∈ calls,
        ((∃ d, a = .summary d) ∧ (i = .scan ∨ (i.busFrame ≠ none ∧ s.params.longRoute = .directory))) ∨
        ∃ o n ko kn d, i = .move o n ∧ (Fin.val ko : Int) = o % 16 ∧ (Fin.val kn : Int) = n % 16 ∧
          s.readReg ko = some d ∧ a = .setPollingAddress d kn) ∧
      (h = [] ∨ ∃ d q, h = [.handle d q]) ∧ (h ≠ [] → i.busFrame ≠ none ∧ w = [.wait]) ∧
      (w = [] ∨ w = [.wait]) ∧
      (w = [.wait] ↔ i = .scan ∨ ∃ raw hint p t', i.busFrame = some (raw, hint) ∧ FrameAt raw p t')

/-- An operation changes a device's own state only by calling that device: MOVE sets the polling address of
the device it re-keys, and a transaction makes a `handle` call (45_device_port.md section 1; 10_state.md
section 7). Between operations a device may also change on its own, which is an input and no operation
(20_memory.md section 4; log entry 16). That a call changes no other device is log entry 24, and that the
FRAME_* rows are transactions too log entry 3. -/
def Obligations.OperationsChangeOnlyCalledDevices : Prop :=
  ∀ (i : Instr) (s t : State) (d : DevId), exec i s = .next t → t.view d ≠ s.view d →
    (∃ o n ko kn, i = .move o n ∧ (Fin.val ko : Int) = o % 16 ∧ (Fin.val kn : Int) = n % 16 ∧
      s.readReg ko = some d ∧ t.activity = [.setPollingAddress d kn] ∧
      t.view d = { s.view d with pollingAddress := kn }) ∨
    (i.busFrame ≠ none ∧ (∃ q, .handle d q ∈ t.activity) ∧
      ∃ h, s.nextHandle = .returns h ∧ t.view d = h.after)

/-- Integer addresses count modulo 16 everywhere: 16 more, or 16 less, is the same operation
(00_scope.md section 5; the spec's decision D5). -/
def Obligations.AddressesCountModuloSixteen : Prop :=
  ∀ (a b m : Int) (command : Int) (data raw : Bytes) (d : DevId) (s : State),
    exec (.saddr (a + 16 * m)) s = exec (.saddr a) s ∧
    exec (.build (a + 16 * m) command data) s = exec (.build a command data) s ∧
    exec (.register (a + 16 * m) d) s = exec (.register a d) s ∧
    exec (.move (a + 16 * m) b) s = exec (.move a b) s ∧
    exec (.move b (a + 16 * m)) s = exec (.move b a) s ∧
    exec (.transact raw (some (a + 16 * m))) s = exec (.transact raw (some a)) s

/-- BUILD answers from the scan cache as it stands: after a REGISTER, a MOVE or a transaction its response
is what it was before (70_reset_and_hazards.md section 3; 20_memory.md section 4; the spec's decision
D15). That the FRAME_* rows are transactions too is log entry 3. -/
def Obligations.BuildUsesTheCacheAsItStands : Prop :=
  ∀ (i : Instr) (s t u v : State) (address command : Int) (data : Bytes),
    ((∃ a d, i = .register a d) ∨ (∃ o n, i = .move o n) ∨ i.busFrame ≠ none) → exec i s = .next t →
    exec (.build address command data) s = .next u → exec (.build address command data) t = .next v →
      v.response = u.response

/-- A unique id is manufacturer id, device type and the 24-bit serial, most significant byte first, and
nothing else (20_memory.md section 1; 45_device_port.md section 2). -/
def Obligations.UniqueIdLayout : Prop :=
  (∀ (m t : Byte) (n : BitVec 24), manufacturerOf (uniqueIdOf m t n) = m ∧
    deviceTypeOf (uniqueIdOf m t n) = t ∧ serialOf (uniqueIdOf m t n) = n) ∧
  (∀ u : UniqueId, uniqueIdOf (manufacturerOf u) (deviceTypeOf u) (serialOf u) = u) ∧
  uniqueIdOf 0x26#8 0x0A#8 0x123456#24 = #v[0x26#8, 0x0A#8, 0x12#8, 0x34#8, 0x56#8]

/-- The length of a frame: preambles, address width, data and four bytes more (30_encoding.md section 3). -/
def Obligations.FrameLengths : Prop :=
  ∀ raw f t, FrameAt raw f t → raw.length = frameLength f + t.length ∧
    (f.start = 0x02#8 ∨ f.start = 0x06#8 → frameLength f = 5 + f.preambles + f.byteCount.toNat) ∧
    (f.start = 0x82#8 ∨ f.start = 0x86#8 → frameLength f = 9 + f.preambles + f.byteCount.toNat)

/-! ### Reset and the invariant -/

/-- What reset leaves (10_state.md section 8, values that are the spec's decisions D13, D14, D28; the ports
and the model's own fields are log entry 12), and that it meets the invariant. The parameters there have
the values the spec takes (00_scope.md section 4; the spec's decisions D13, D14, D16, D17); that they are
a field of State with these values at reset is the model's choice, log entry 8. -/
def Obligations.ResetStateAndInvariant : Prop :=
  State.reset.Inv ∧ State.reset.cfg = 0x50#8 ∧ (∀ k, State.reset.readReg k = none) ∧
    State.reset.scanCache = [] ∧ State.reset.lock = .free ∧ State.reset.response = none ∧
    State.reset.params = ⟨.hint, false, 5#3, 0#1⟩

/-- The reset input, between operations: every piece of block state takes its reset value, no device is
called, every device's own state and everything still to come is as it was (70_reset_and_hazards.md
section 1; 00_scope.md section 4; the spec's decisions D13, D14, D28, D40; log entry 15; the parameters in
State are log entry 8). -/
def Obligations.ResetInputRestoresTheBlock : Prop :=
  ∀ (s : State) (rest : List Input), s.inputs = .reset :: rest →
    ∃ t : State, step s = .next t ∧
      t = { s with
        cfg := t.cfg, reg := t.reg, scanCache := [], lock := .free, inputs := rest, response := none,
        activity := [] } ∧
      cfgFmt t.cfg = s.params.resetFmt ∧ cfgPre t.cfg = s.params.resetPre ∧ cfgReserved t.cfg = 0#4 ∧
      (∀ k, t.readReg k = none) ∧ (s.params = Config.specParams → t.cfg = 0x50#8)

/-- Every step keeps the invariant: legal parameters, a legal CFG (reserved bits 0, PRE 3..7), a scan cache
strictly ascending, the lock free, and the table of devices in canonical form (10_state.md sections 2, 4
and 5; 00_scope.md section 4; the parameters in State are log entry 8, the table is log entry 6, the lock
log entry 11). -/
def Obligations.StepKeepsTheInvariant : Prop :=
  ∀ s t : State, s.Inv → step s = .next t → t.Inv
end

