-- ==== Sys2Proof/Laws/Codec.lean ====
section
/-! SUPPORT. The frame codec: the XOR fold, and the parser as the frame grammar read backwards. -/

namespace Sys2Proof.Machine

/-! ### The XOR fold (R12) -/

@[simp] theorem xorFold_nil : xorFold [] = 0#8 := rfl

@[simp] theorem xorFold_cons (b : Byte) (s : Bytes) : xorFold (b :: s) = b ^^^ xorFold s := rfl

@[simp] theorem xorFold_append (s t : Bytes) : xorFold (s ++ t) = xorFold s ^^^ xorFold t := by
  induction s with
  | nil => simp
  | cons b s ih => simp [ih, BitVec.xor_assoc]

/-- The engine's loop from the left gives the same byte (R64). -/
theorem foldl_xor_eq (a : Byte) (s : Bytes) : s.foldl (· ^^^ ·) a = a ^^^ xorFold s := by
  induction s generalizing a with
  | nil => simp
  | cons b s ih => simp [ih, BitVec.xor_assoc]

/-- The order of the bytes does not matter (R12, R64). -/
theorem xorFold_perm {s t : Bytes} (h : s.Perm t) : xorFold s = xorFold t := by
  induction h with
  | nil => rfl
  | cons b _ ih => simp [ih]
  | swap a b s => simp [← BitVec.xor_assoc, BitVec.xor_comm a b]
  | trans _ _ h1 h2 => exact h1.trans h2

/-- Appending the fold gives zero (R12). -/
theorem xorFold_append_self (s : Bytes) : xorFold (s ++ [xorFold s]) = 0#8 := by
  simp

theorem xor_eq_zero_iff (a b : Byte) : a ^^^ b = 0#8 ↔ a = b := by
  constructor
  · intro h
    have : (a ^^^ b) ^^^ b = 0#8 ^^^ b := by rw [h]
    simpa [BitVec.xor_assoc] using this
  · rintro rfl
    simp

/-! ### Start delimiters and preambles -/

theorem addressWidth_eq_some {st : Byte} {w : Nat} : addressWidth st = some w ↔ hasWidth st w := by
  unfold addressWidth
  split
  · rename_i h
    rcases h with rfl | rfl <;> simp [hasWidth] <;> omega
  · split
    · rename_i h
      rcases h with rfl | rfl <;> simp [hasWidth] <;> omega
    · rename_i h1 h2
      simp only [not_or] at h1 h2
      simp [hasWidth, h1, h2]

theorem hasWidth_ne_preamble {st : Byte} {w : Nat} (h : hasWidth st w) : st ≠ 0xFF#8 := by
  rcases h with ⟨rfl, _⟩ | ⟨rfl, _⟩ | ⟨rfl, _⟩ | ⟨rfl, _⟩ <;> decide

/-- The preamble count is exact when a byte other than 0xFF follows (R71). -/
theorem countPreambles_replicate {st : Byte} (h : st ≠ 0xFF#8) (p : Nat) (rest : Bytes) :
    countPreambles (List.replicate p 0xFF#8 ++ st :: rest) = p := by
  induction p with
  | zero => simp [countPreambles, Config.preambleByte, h]
  | succ p ih => simp [List.replicate_succ, countPreambles, Config.preambleByte, ih]

/-- The counted preambles are at the head (R71). -/
theorem replicate_countPreambles (raw : Bytes) :
    raw = List.replicate (countPreambles raw) 0xFF#8 ++ raw.drop (countPreambles raw) := by
  induction raw with
  | nil => simp [countPreambles]
  | cons b bs ih =>
    simp only [countPreambles]
    split
    · rename_i h
      rw [h]
      simp only [List.replicate_succ, List.drop_succ_cons, List.cons_append, Config.preambleByte]
      exact congrArg _ ih
    · simp

theorem drop_countPreambles {st : Byte} (h : st ≠ 0xFF#8) (p : Nat) (rest : Bytes) :
    (List.replicate p 0xFF#8 ++ st :: rest).drop (countPreambles (List.replicate p 0xFF#8 ++ st :: rest)) =
      st :: rest := by
  rw [countPreambles_replicate h]
  simp

/-! ### The parser -/

/-- The parser on an input with its preambles and start byte separated. -/
theorem parseFrameRest_start {st : Byte} (h : st ≠ 0xFF#8) (p : Nat) (rest : Bytes) :
    parseFrameRest (List.replicate p 0xFF#8 ++ st :: rest) =
      match addressWidth st with
      | none => .error .unrecognizedStart
      | some w => parseHeader p st w rest := by
  unfold parseFrameRest
  rw [drop_countPreambles h, countPreambles_replicate h]
  all_goals rfl

/-- The parser on an input with its address, command and byte count separated. -/
theorem parseHeader_split (p : Nat) (st : Byte) (address : Bytes) (cmd bc : Byte) (body : Bytes) :
    parseHeader p st address.length (address ++ cmd :: bc :: body) = parseBody p st address cmd bc body := by
  simp [parseHeader]

/-- The parser on an input with its data and checksum separated. -/
theorem parseBody_split (p : Nat) (st : Byte) (address : Bytes) (cmd bc : Byte) (data : Bytes) (rx : Byte)
    (t : Bytes) (h : data.length = bc.toNat) :
    parseBody p st address cmd bc (data ++ rx :: t) =
      .ok ({ preambles := p, start := st, address := address, command := cmd, byteCount := bc,
             data := data, rxChecksum := rx,
             csumOk := checksumOk (frameBody st address cmd bc data) rx }, t) := by
  simp [parseBody, ← h]

/-- Too few bytes for address, command and byte count (R73). -/
theorem parseHeader_short {p : Nat} {st : Byte} {w : Nat} {rest : Bytes} (h : rest.length < w + 2) :
    parseHeader p st w rest = .error .headerTooShort := by
  unfold parseHeader
  split
  · rename_i heq
    have := congrArg List.length heq
    simp at this
    omega
  · rfl

/-- Too few bytes for data and checksum (R73). -/
theorem parseBody_short {p : Nat} {st : Byte} {address : Bytes} {cmd bc : Byte} {rest : Bytes}
    (h : rest.length < bc.toNat + 1) : parseBody p st address cmd bc rest = .error .bodyTooShort := by
  unfold parseBody
  rw [List.drop_of_length_le (by omega)]

theorem frameBody_eq (st : Byte) (address : Bytes) (cmd bc : Byte) (data : Bytes) :
    frameBody st address cmd bc data = [st] ++ address ++ [cmd, bc] ++ data := by
  simp [frameBody]

/-- The parser accepts exactly the frames of R43 to R46, and gives their fields. -/
theorem parseFrameRest_eq_ok {raw : Bytes} {f : ParsedFrame} {t : Bytes} :
    parseFrameRest raw = .ok (f, t) ↔ FrameAt raw f t := by
  constructor
  · intro h
    unfold parseFrameRest at h
    split at h
    · cases h
    · rename_i st rest hd
      split at h
      · cases h
      · rename_i w hw
        unfold parseHeader at h
        split at h
        · rename_i cmd bc body hrest
          unfold parseBody at h
          split at h
          · rename_i rx tr hbody
            cases h
            have hlen : (rest.take w).length = w := by
              have := congrArg List.length hrest
              simp at this
              simp
              omega
            refine ⟨?_, ?_, ?_, ?_⟩
            · rw [hlen]
              exact addressWidth_eq_some.mp hw
            · have := congrArg List.length hbody
              simp at this
              simp
              omega
            · have h1 := replicate_countPreambles raw
              have h2 := List.take_append_drop w rest
              have h3 := List.take_append_drop bc.toNat body
              rw [hd] at h1
              rw [hrest] at h2
              rw [hbody] at h3
              conv_lhs => rw [h1, ← h2, ← h3]
              simp
            · simp [checksumOk, frameBody_eq]
          · cases h
        · cases h
  · rintro ⟨hw, hl, rfl, hc⟩
    have hst := hasWidth_ne_preamble hw
    have key := parseFrameRest_start hst f.preambles
      (f.address ++ f.command :: f.byteCount :: (f.data ++ f.rxChecksum :: t))
    rw [addressWidth_eq_some.mpr hw] at key
    simp only [parseHeader_split, parseBody_split _ _ _ _ _ _ _ _ hl] at key
    simp only [List.append_assoc, List.cons_append, List.nil_append]
    rw [key]
    cases f
    simp_all [checksumOk, frameBody_eq]

/-- DECODE's parser gives `f` exactly when the input is a frame with these fields and something after. -/
theorem parseFrame_eq_ok {raw : Bytes} {f : ParsedFrame} :
    parseFrame raw = .ok f ↔ ∃ t, FrameAt raw f t := by
  unfold parseFrame
  cases h : parseFrameRest raw with
  | error e =>
    simp only [Except.map]
    constructor
    · intro h'; cases h'
    · rintro ⟨t, ht⟩
      rw [parseFrameRest_eq_ok.mpr ht] at h
      cases h
  | ok r =>
    obtain ⟨g, t⟩ := r
    simp only [Except.map, Except.ok.injEq]
    constructor
    · rintro rfl
      exact ⟨t, parseFrameRest_eq_ok.mp h⟩
    · rintro ⟨t', ht⟩
      rw [parseFrameRest_eq_ok.mpr ht] at h
      cases h
      rfl

/-- A parse that fails says that the input is no frame. -/
theorem parseFrame_error {raw : Bytes} {e : ParseFailure} (h : parseFrame raw = .error e) :
    ¬ ∃ f t, FrameAt raw f t := by
  rintro ⟨f, t, hf⟩
  rw [parseFrame_eq_ok.mpr ⟨t, hf⟩] at h
  cases h

/-- An input that is no frame fails to parse. -/
theorem parseFrame_fails {raw : Bytes} (h : ¬ ∃ f t, FrameAt raw f t) : ∃ e, parseFrame raw = .error e := by
  cases hp : parseFrame raw with
  | error e => exact ⟨e, rfl⟩
  | ok f => exact absurd ⟨f, parseFrame_eq_ok.mp hp⟩ h

/-- An input is the frame of one record at most. -/
theorem frameAt_unique {raw t u : Bytes} {p q : ParsedFrame} (h1 : FrameAt raw p t) (h2 : FrameAt raw q u) :
    p = q ∧ t = u := by
  have h := parseFrameRest_eq_ok.mpr h1
  rw [parseFrameRest_eq_ok.mpr h2] at h
  cases h
  exact ⟨rfl, rfl⟩

/-! ### The encoder -/

theorem lengthByte_toNat {data : Bytes} (h : data.length ≤ 255) : (lengthByte data).toNat = data.length := by
  simp [lengthByte]
  omega

/-- A laid-out frame is a frame, with its bytes after it (R43, R77). -/
theorem layoutFrame_frameAt {st : Byte} {address : Bytes} (hw : hasWidth st address.length) {data : Bytes}
    (hd : data.length ≤ 255) (p : Nat) (cmd rx : Byte) (t : Bytes) :
    FrameAt (layoutFrame p st address cmd data rx ++ t)
      { preambles := p, start := st, address := address, command := cmd, byteCount := lengthByte data,
        data := data, rxChecksum := rx,
        csumOk := checksumOk (frameBody st address cmd (lengthByte data) data) rx } t where
  width := hw
  dataLength := (lengthByte_toNat hd).symm
  bytes := by simp [layoutFrame, preambleBytes, Config.preambleByte, frameBody_eq]
  csumOk := by simp [checksumOk, frameBody_eq]

/-- ENCODE's frame as the rule writes it out (R68). -/
theorem encodeFrame_eq (p : Nat) (st : Byte) (address : Bytes) (cmd : Byte) (data : Bytes) :
    encodeFrame p st address cmd data = encodedBytes p st address cmd data := by
  simp [encodeFrame, layoutFrame, encodedBytes, frameBody_eq, preambleBytes, Config.preambleByte,
    lengthByte, foldl_xor_eq, BitVec.xor_assoc]

/-- An encoded frame of a recognized start is a frame with a good checksum (R69, R77). -/
theorem encodeFrame_frameAt {st : Byte} {address : Bytes} (hw : hasWidth st address.length) {data : Bytes}
    (hd : data.length ≤ 255) (p : Nat) (cmd : Byte) (t : Bytes) :
    FrameAt (encodeFrame p st address cmd data ++ t)
      { preambles := p, start := st, address := address, command := cmd, byteCount := lengthByte data,
        data := data, rxChecksum := xorFold (frameBody st address cmd (lengthByte data) data),
        csumOk := true } t := by
  have h := layoutFrame_frameAt hw hd p cmd (xorFold (frameBody st address cmd (lengthByte data) data)) t
  simpa [checksumOk, encodeFrame] using h

/-- The wire bytes of a frame row are those of the grammar. -/
theorem wireBytes_eq (st : Byte) (f : WireFrame) : f.bytes st = Instr.busFrame.wire st f := by
  simp [WireFrame.bytes, layoutFrame, Instr.busFrame.wire, frameBody_eq, preambleBytes,
    Config.preambleByte, lengthByte]

/-- Which integers are byte operands (R61). -/
theorem byteOperand_eq_some {n : Int} {b : Byte} :
    byteOperand n = some b ↔ 0 ≤ n ∧ n ≤ 255 ∧ (b.toNat : Int) = n := by
  unfold byteOperand
  split
  · rename_i h
    simp only [Option.some.injEq]
    constructor
    · rintro rfl
      refine ⟨h.1, h.2, ?_⟩
      simp
      omega
    · rintro ⟨_, _, hb⟩
      apply BitVec.eq_of_toNat_eq
      simp
      omega
  · rename_i h
    simp
    omega

theorem byteOperand_eq_none {n : Int} : byteOperand n = none ↔ n < 0 ∨ 255 < n := by
  unfold byteOperand
  split <;> simp <;> omega

@[simp] theorem byteOperand_byte (b : Byte) : byteOperand b.toNat = some b :=
  byteOperand_eq_some.mpr ⟨by omega, by omega, rfl⟩

theorem dataFits_iff {data : Bytes} : dataFits data = true ↔ data.length ≤ 255 := by
  unfold dataFits
  exact decide_eq_true_iff

/-! ### Keys (R9, R48) -/

theorem keyOf_val (n : Int) : ((keyOf n).val : Int) = n % 16 := by
  simp [keyOf]
  omega

theorem keyOf_eq_iff {n : Int} {k : Key} : keyOf n = k ↔ (k.val : Int) = n % 16 := by
  rw [← keyOf_val]
  constructor
  · rintro rfl; rfl
  · intro h; apply Fin.ext; omega

theorem keyOfByte_val (b : Byte) : (keyOfByte b).val = b.toNat % 16 := by
  simp [keyOfByte]

/-- The short address byte is 128 plus the key (R66). -/
theorem shortAddress_toNat (n : Int) : ((shortAddress n).toNat : Int) = 128 + n % 16 := by
  have h : ∀ k : Key, (0x80#8 ||| keyByte k).toNat = 128 + k.val := by decide
  rw [shortAddress, h, ← keyOf_val n]
  simp

theorem shortAddress_masterFlag (n : Int) : (shortAddress n).extractLsb' 7 1 = 1#1 := by
  have h : ∀ k : Key, (0x80#8 ||| keyByte k).extractLsb' 7 1 = 1#1 := by decide
  exact h _

/-! ### Frames and words -/

/-- A sequence is a frame in one way at most. -/
theorem FrameAt.unique {raw : Bytes} {p q : ParsedFrame} {t u : Bytes} (h1 : FrameAt raw p t)
    (h2 : FrameAt raw q u) : p = q ∧ t = u := by
  have h := parseFrameRest_eq_ok.mpr h1
  rw [parseFrameRest_eq_ok.mpr h2] at h
  cases h
  exact ⟨rfl, rfl⟩

/-- Bytes after a frame leave it the frame it was (R75). -/
theorem FrameAt.append {raw : Bytes} {f : ParsedFrame} {t : Bytes} (h : FrameAt raw f t) (more : Bytes) :
    FrameAt (raw ++ more) f (t ++ more) :=
  ⟨h.width, h.dataLength, by rw [h.bytes]; simp, h.csumOk⟩

/-- The bytes of a frame are those of its fields laid out. -/
theorem FrameAt.wire {raw : Bytes} {f : ParsedFrame} {t : Bytes} (h : FrameAt raw f t) :
    (WireFrame.ofParsed f t).bytes f.start = raw := by
  have hb : lengthByte f.data = f.byteCount := by
    simp [lengthByte, h.dataLength]
  rw [h.bytes]
  simp [WireFrame.bytes, WireFrame.ofParsed, layoutFrame, hb, frameBody_eq, preambleBytes,
    Config.preambleByte]

/-- A laid-out wire frame parses to its fields. -/
theorem parseFrameRest_bytes {st : Byte} {f : WireFrame} (hw : hasWidth st f.address.length)
    (hd : f.data.length ≤ 255) :
    ∃ p, parseFrameRest (f.bytes st) = .ok (p, f.trailing) ∧ p.start = st ∧
      WireFrame.ofParsed p f.trailing = f :=
  ⟨_, parseFrameRest_eq_ok.mpr
    (layoutFrame_frameAt hw hd f.preambles f.command f.checksum f.trailing), rfl, rfl⟩

end Sys2Proof.Machine
end

