-- ==== Sys2Proof/Laws/State.lean ====
section
/-! SUPPORT. One lemma for each field of each update of the state, so that no proof unfolds a record
update; and what the handle-result queue does. -/

namespace Sys2Proof.Machine

/-! ### writeCfg -/

@[simp] theorem State.writeCfg_params (s : State) (c : BitVec 8) :
    (s.writeCfg c).params = s.params := rfl

@[simp] theorem State.writeCfg_cfg (s : State) (c : BitVec 8) :
    (s.writeCfg c).cfg = c := rfl

@[simp] theorem State.writeCfg_reg (s : State) (c : BitVec 8) :
    (s.writeCfg c).reg = s.reg := rfl

@[simp] theorem State.writeCfg_scanCache (s : State) (c : BitVec 8) :
    (s.writeCfg c).scanCache = s.scanCache := rfl

@[simp] theorem State.writeCfg_lock (s : State) (c : BitVec 8) :
    (s.writeCfg c).lock = s.lock := rfl

@[simp] theorem State.writeCfg_devices (s : State) (c : BitVec 8) :
    (s.writeCfg c).devices = s.devices := rfl

@[simp] theorem State.writeCfg_inputs (s : State) (c : BitVec 8) :
    (s.writeCfg c).inputs = s.inputs := rfl

@[simp] theorem State.writeCfg_handleResults (s : State) (c : BitVec 8) :
    (s.writeCfg c).handleResults = s.handleResults := rfl

@[simp] theorem State.writeCfg_draws (s : State) (c : BitVec 8) :
    (s.writeCfg c).draws = s.draws := rfl

@[simp] theorem State.writeCfg_response (s : State) (c : BitVec 8) :
    (s.writeCfg c).response = s.response := rfl

@[simp] theorem State.writeCfg_activity (s : State) (c : BitVec 8) :
    (s.writeCfg c).activity = s.activity := rfl

/-! ### writeReg -/

@[simp] theorem State.writeReg_params (s : State) (k : Key) (v : Option DevId) :
    (s.writeReg k v).params = s.params := rfl

@[simp] theorem State.writeReg_cfg (s : State) (k : Key) (v : Option DevId) :
    (s.writeReg k v).cfg = s.cfg := rfl

@[simp] theorem State.writeReg_reg (s : State) (k : Key) (v : Option DevId) :
    (s.writeReg k v).reg = s.reg.set k v := rfl

@[simp] theorem State.writeReg_scanCache (s : State) (k : Key) (v : Option DevId) :
    (s.writeReg k v).scanCache = s.scanCache := rfl

@[simp] theorem State.writeReg_lock (s : State) (k : Key) (v : Option DevId) :
    (s.writeReg k v).lock = s.lock := rfl

@[simp] theorem State.writeReg_devices (s : State) (k : Key) (v : Option DevId) :
    (s.writeReg k v).devices = s.devices := rfl

@[simp] theorem State.writeReg_inputs (s : State) (k : Key) (v : Option DevId) :
    (s.writeReg k v).inputs = s.inputs := rfl

@[simp] theorem State.writeReg_handleResults (s : State) (k : Key) (v : Option DevId) :
    (s.writeReg k v).handleResults = s.handleResults := rfl

@[simp] theorem State.writeReg_draws (s : State) (k : Key) (v : Option DevId) :
    (s.writeReg k v).draws = s.draws := rfl

@[simp] theorem State.writeReg_response (s : State) (k : Key) (v : Option DevId) :
    (s.writeReg k v).response = s.response := rfl

@[simp] theorem State.writeReg_activity (s : State) (k : Key) (v : Option DevId) :
    (s.writeReg k v).activity = s.activity := rfl

/-! ### writeScanCache -/

@[simp] theorem State.writeScanCache_params (s : State) (l : List Summary) :
    (s.writeScanCache l).params = s.params := rfl

@[simp] theorem State.writeScanCache_cfg (s : State) (l : List Summary) :
    (s.writeScanCache l).cfg = s.cfg := rfl

@[simp] theorem State.writeScanCache_reg (s : State) (l : List Summary) :
    (s.writeScanCache l).reg = s.reg := rfl

@[simp] theorem State.writeScanCache_scanCache (s : State) (l : List Summary) :
    (s.writeScanCache l).scanCache = l := rfl

@[simp] theorem State.writeScanCache_lock (s : State) (l : List Summary) :
    (s.writeScanCache l).lock = s.lock := rfl

@[simp] theorem State.writeScanCache_devices (s : State) (l : List Summary) :
    (s.writeScanCache l).devices = s.devices := rfl

@[simp] theorem State.writeScanCache_inputs (s : State) (l : List Summary) :
    (s.writeScanCache l).inputs = s.inputs := rfl

@[simp] theorem State.writeScanCache_handleResults (s : State) (l : List Summary) :
    (s.writeScanCache l).handleResults = s.handleResults := rfl

@[simp] theorem State.writeScanCache_draws (s : State) (l : List Summary) :
    (s.writeScanCache l).draws = s.draws := rfl

@[simp] theorem State.writeScanCache_response (s : State) (l : List Summary) :
    (s.writeScanCache l).response = s.response := rfl

@[simp] theorem State.writeScanCache_activity (s : State) (l : List Summary) :
    (s.writeScanCache l).activity = s.activity := rfl

/-! ### writeView -/

@[simp] theorem State.writeView_params (s : State) (d : DevId) (v : DeviceView) :
    (s.writeView d v).params = s.params := rfl

@[simp] theorem State.writeView_cfg (s : State) (d : DevId) (v : DeviceView) :
    (s.writeView d v).cfg = s.cfg := rfl

@[simp] theorem State.writeView_reg (s : State) (d : DevId) (v : DeviceView) :
    (s.writeView d v).reg = s.reg := rfl

@[simp] theorem State.writeView_scanCache (s : State) (d : DevId) (v : DeviceView) :
    (s.writeView d v).scanCache = s.scanCache := rfl

@[simp] theorem State.writeView_lock (s : State) (d : DevId) (v : DeviceView) :
    (s.writeView d v).lock = s.lock := rfl

@[simp] theorem State.writeView_devices (s : State) (d : DevId) (v : DeviceView) :
    (s.writeView d v).devices = insertView d v s.devices := rfl

@[simp] theorem State.writeView_inputs (s : State) (d : DevId) (v : DeviceView) :
    (s.writeView d v).inputs = s.inputs := rfl

@[simp] theorem State.writeView_handleResults (s : State) (d : DevId) (v : DeviceView) :
    (s.writeView d v).handleResults = s.handleResults := rfl

@[simp] theorem State.writeView_draws (s : State) (d : DevId) (v : DeviceView) :
    (s.writeView d v).draws = s.draws := rfl

@[simp] theorem State.writeView_response (s : State) (d : DevId) (v : DeviceView) :
    (s.writeView d v).response = s.response := rfl

@[simp] theorem State.writeView_activity (s : State) (d : DevId) (v : DeviceView) :
    (s.writeView d v).activity = s.activity := rfl

/-! ### setPollingAddress -/

@[simp] theorem State.setPollingAddress_params (s : State) (d : DevId) (k : Key) :
    (s.setPollingAddress d k).params = s.params := rfl

@[simp] theorem State.setPollingAddress_cfg (s : State) (d : DevId) (k : Key) :
    (s.setPollingAddress d k).cfg = s.cfg := rfl

@[simp] theorem State.setPollingAddress_reg (s : State) (d : DevId) (k : Key) :
    (s.setPollingAddress d k).reg = s.reg := rfl

@[simp] theorem State.setPollingAddress_scanCache (s : State) (d : DevId) (k : Key) :
    (s.setPollingAddress d k).scanCache = s.scanCache := rfl

@[simp] theorem State.setPollingAddress_lock (s : State) (d : DevId) (k : Key) :
    (s.setPollingAddress d k).lock = s.lock := rfl

@[simp] theorem State.setPollingAddress_devices (s : State) (d : DevId) (k : Key) :
    (s.setPollingAddress d k).devices = insertView d { s.view d with pollingAddress := k } s.devices := rfl

@[simp] theorem State.setPollingAddress_inputs (s : State) (d : DevId) (k : Key) :
    (s.setPollingAddress d k).inputs = s.inputs := rfl

@[simp] theorem State.setPollingAddress_handleResults (s : State) (d : DevId) (k : Key) :
    (s.setPollingAddress d k).handleResults = s.handleResults := rfl

@[simp] theorem State.setPollingAddress_draws (s : State) (d : DevId) (k : Key) :
    (s.setPollingAddress d k).draws = s.draws := rfl

@[simp] theorem State.setPollingAddress_response (s : State) (d : DevId) (k : Key) :
    (s.setPollingAddress d k).response = s.response := rfl

@[simp] theorem State.setPollingAddress_activity (s : State) (d : DevId) (k : Key) :
    (s.setPollingAddress d k).activity = s.activity := rfl

/-! ### finish -/

@[simp] theorem State.finish_params (s : State) (a : List Activity) (st : Status) (r : Result) :
    (s.finish a st r).params = s.params := rfl

@[simp] theorem State.finish_cfg (s : State) (a : List Activity) (st : Status) (r : Result) :
    (s.finish a st r).cfg = s.cfg := rfl

@[simp] theorem State.finish_reg (s : State) (a : List Activity) (st : Status) (r : Result) :
    (s.finish a st r).reg = s.reg := rfl

@[simp] theorem State.finish_scanCache (s : State) (a : List Activity) (st : Status) (r : Result) :
    (s.finish a st r).scanCache = s.scanCache := rfl

@[simp] theorem State.finish_lock (s : State) (a : List Activity) (st : Status) (r : Result) :
    (s.finish a st r).lock = s.lock := rfl

@[simp] theorem State.finish_devices (s : State) (a : List Activity) (st : Status) (r : Result) :
    (s.finish a st r).devices = s.devices := rfl

@[simp] theorem State.finish_inputs (s : State) (a : List Activity) (st : Status) (r : Result) :
    (s.finish a st r).inputs = s.inputs := rfl

@[simp] theorem State.finish_handleResults (s : State) (a : List Activity) (st : Status) (r : Result) :
    (s.finish a st r).handleResults = s.handleResults := rfl

@[simp] theorem State.finish_draws (s : State) (a : List Activity) (st : Status) (r : Result) :
    (s.finish a st r).draws = s.draws := rfl

@[simp] theorem State.finish_response (s : State) (a : List Activity) (st : Status) (r : Result) :
    (s.finish a st r).response = some ⟨st, r⟩ := rfl

@[simp] theorem State.finish_activity (s : State) (a : List Activity) (st : Status) (r : Result) :
    (s.finish a st r).activity = a := rfl

/-! ### withInputs -/

@[simp] theorem State.withInputs_params (s : State) (l : List Input) :
    (s.withInputs l).params = s.params := rfl

@[simp] theorem State.withInputs_cfg (s : State) (l : List Input) :
    (s.withInputs l).cfg = s.cfg := rfl

@[simp] theorem State.withInputs_reg (s : State) (l : List Input) :
    (s.withInputs l).reg = s.reg := rfl

@[simp] theorem State.withInputs_scanCache (s : State) (l : List Input) :
    (s.withInputs l).scanCache = s.scanCache := rfl

@[simp] theorem State.withInputs_lock (s : State) (l : List Input) :
    (s.withInputs l).lock = s.lock := rfl

@[simp] theorem State.withInputs_devices (s : State) (l : List Input) :
    (s.withInputs l).devices = s.devices := rfl

@[simp] theorem State.withInputs_inputs (s : State) (l : List Input) :
    (s.withInputs l).inputs = l := rfl

@[simp] theorem State.withInputs_handleResults (s : State) (l : List Input) :
    (s.withInputs l).handleResults = s.handleResults := rfl

@[simp] theorem State.withInputs_draws (s : State) (l : List Input) :
    (s.withInputs l).draws = s.draws := rfl

@[simp] theorem State.withInputs_response (s : State) (l : List Input) :
    (s.withInputs l).response = s.response := rfl

@[simp] theorem State.withInputs_activity (s : State) (l : List Input) :
    (s.withInputs l).activity = s.activity := rfl

/-! ### resetBlock -/

@[simp] theorem State.resetBlock_params (s : State) :
    s.resetBlock.params = s.params := rfl

@[simp] theorem State.resetBlock_cfg (s : State) :
    s.resetBlock.cfg = resetCfg s.params := rfl

@[simp] theorem State.resetBlock_reg (s : State) :
    s.resetBlock.reg = emptyReg := rfl

@[simp] theorem State.resetBlock_scanCache (s : State) :
    s.resetBlock.scanCache = [] := rfl

@[simp] theorem State.resetBlock_lock (s : State) :
    s.resetBlock.lock = .free := rfl

@[simp] theorem State.resetBlock_devices (s : State) :
    s.resetBlock.devices = s.devices := rfl

@[simp] theorem State.resetBlock_inputs (s : State) :
    s.resetBlock.inputs = s.inputs := rfl

@[simp] theorem State.resetBlock_handleResults (s : State) :
    s.resetBlock.handleResults = s.handleResults := rfl

@[simp] theorem State.resetBlock_draws (s : State) :
    s.resetBlock.draws = s.draws := rfl

@[simp] theorem State.resetBlock_response (s : State) :
    s.resetBlock.response = none := rfl

@[simp] theorem State.resetBlock_activity (s : State) :
    s.resetBlock.activity = [] := rfl

/-! ### dropHandleResult and afterHandle -/

@[simp] theorem State.dropHandleResult_params (s : State) :
    s.dropHandleResult.params = s.params := by
  unfold State.dropHandleResult
  split <;> rfl

@[simp] theorem State.dropHandleResult_cfg (s : State) :
    s.dropHandleResult.cfg = s.cfg := by
  unfold State.dropHandleResult
  split <;> rfl

@[simp] theorem State.dropHandleResult_reg (s : State) :
    s.dropHandleResult.reg = s.reg := by
  unfold State.dropHandleResult
  split <;> rfl

@[simp] theorem State.dropHandleResult_scanCache (s : State) :
    s.dropHandleResult.scanCache = s.scanCache := by
  unfold State.dropHandleResult
  split <;> rfl

@[simp] theorem State.dropHandleResult_lock (s : State) :
    s.dropHandleResult.lock = s.lock := by
  unfold State.dropHandleResult
  split <;> rfl

@[simp] theorem State.dropHandleResult_devices (s : State) :
    s.dropHandleResult.devices = s.devices := by
  unfold State.dropHandleResult
  split <;> rfl

@[simp] theorem State.dropHandleResult_inputs (s : State) :
    s.dropHandleResult.inputs = s.inputs := by
  unfold State.dropHandleResult
  split <;> rfl

@[simp] theorem State.dropHandleResult_response (s : State) :
    s.dropHandleResult.response = s.response := by
  unfold State.dropHandleResult
  split <;> rfl

@[simp] theorem State.dropHandleResult_activity (s : State) :
    s.dropHandleResult.activity = s.activity := by
  unfold State.dropHandleResult
  split <;> rfl

@[simp] theorem State.afterHandle_params (s : State) (d : DevId) (v : DeviceView) :
    (s.afterHandle d v).params = s.params := by
  simp [State.afterHandle]

@[simp] theorem State.afterHandle_cfg (s : State) (d : DevId) (v : DeviceView) :
    (s.afterHandle d v).cfg = s.cfg := by
  simp [State.afterHandle]

@[simp] theorem State.afterHandle_reg (s : State) (d : DevId) (v : DeviceView) :
    (s.afterHandle d v).reg = s.reg := by
  simp [State.afterHandle]

@[simp] theorem State.afterHandle_scanCache (s : State) (d : DevId) (v : DeviceView) :
    (s.afterHandle d v).scanCache = s.scanCache := by
  simp [State.afterHandle]

@[simp] theorem State.afterHandle_lock (s : State) (d : DevId) (v : DeviceView) :
    (s.afterHandle d v).lock = s.lock := by
  simp [State.afterHandle]

@[simp] theorem State.afterHandle_devices (s : State) (d : DevId) (v : DeviceView) :
    (s.afterHandle d v).devices = insertView d v s.devices := by
  simp [State.afterHandle]

@[simp] theorem State.afterHandle_inputs (s : State) (d : DevId) (v : DeviceView) :
    (s.afterHandle d v).inputs = s.inputs := by
  simp [State.afterHandle]

@[simp] theorem State.afterHandle_handleResults (s : State) (d : DevId) (v : DeviceView) :
    (s.afterHandle d v).handleResults = s.dropHandleResult.handleResults := rfl

@[simp] theorem State.afterHandle_draws (s : State) (d : DevId) (v : DeviceView) :
    (s.afterHandle d v).draws = s.dropHandleResult.draws := rfl

@[simp] theorem State.afterHandle_response (s : State) (d : DevId) (v : DeviceView) :
    (s.afterHandle d v).response = s.response := by
  simp [State.afterHandle]

@[simp] theorem State.afterHandle_activity (s : State) (d : DevId) (v : DeviceView) :
    (s.afterHandle d v).activity = s.activity := by
  simp [State.afterHandle]

/-! ### What a read sees after an update -/

@[simp] theorem State.finish_readReg (s : State) (a : List Activity) (st : Status) (r : Result) (k : Key) :
    (s.finish a st r).readReg k = s.readReg k := rfl

@[simp] theorem State.finish_view (s : State) (a : List Activity) (st : Status) (r : Result) (d : DevId) :
    (s.finish a st r).view d = s.view d := rfl

@[simp] theorem State.withInputs_readReg (s : State) (l : List Input) (k : Key) :
    (s.withInputs l).readReg k = s.readReg k := rfl

@[simp] theorem State.withInputs_view (s : State) (l : List Input) (d : DevId) :
    (s.withInputs l).view d = s.view d := rfl

@[simp] theorem State.writeCfg_readReg (s : State) (c : BitVec 8) (k : Key) :
    (s.writeCfg c).readReg k = s.readReg k := rfl

@[simp] theorem State.writeScanCache_readReg (s : State) (l : List Summary) (k : Key) :
    (s.writeScanCache l).readReg k = s.readReg k := rfl

@[simp] theorem State.writeView_readReg (s : State) (d : DevId) (v : DeviceView) (k : Key) :
    (s.writeView d v).readReg k = s.readReg k := rfl

@[simp] theorem State.writeReg_view (s : State) (k : Key) (v : Option DevId) (d : DevId) :
    (s.writeReg k v).view d = s.view d := rfl

@[simp] theorem State.afterHandle_readReg (s : State) (d : DevId) (v : DeviceView) (k : Key) :
    (s.afterHandle d v).readReg k = s.readReg k := by
  simp [State.readReg]

/-- Read after write in the registry. -/
theorem State.writeReg_readReg (s : State) (k j : Key) (v : Option DevId) :
    (s.writeReg k v).readReg j = if k = j then v else s.readReg j := by
  simp [State.readReg, Vector.getElem_set, Fin.ext_iff]

end Sys2Proof.Machine
end

