-- ==== Sys2Proof/Laws/Devices.lean ====
section
/-! SUPPORT. The table of devices: read after write, and the canonical form is kept. -/

namespace Sys2Proof.Machine

theorem lookupView_insertView_same (d : DevId) (v : DeviceView) (l : List (DevId × DeviceView)) :
    lookupView d (insertView d v l) = some v := by
  induction l with
  | nil => simp [insertView, lookupView]
  | cons e rest ih =>
    obtain ⟨e, u⟩ := e
    simp only [insertView]
    split
    · simp [lookupView]
    · split
      · simp [lookupView]
      · rename_i h
        simp [lookupView, h, ih]

theorem lookupView_insertView_other {c d : DevId} (h : d ≠ c) (v : DeviceView)
    (l : List (DevId × DeviceView)) : lookupView c (insertView d v l) = lookupView c l := by
  induction l with
  | nil => simp [insertView, lookupView, h]
  | cons e rest ih =>
    obtain ⟨e, u⟩ := e
    simp only [insertView]
    split
    · simp [lookupView, h]
    · split
      · rename_i he
        subst he
        simp [lookupView, h]
      · simp [lookupView, ih]

theorem mem_insertView {d : DevId} {v : DeviceView} {l : List (DevId × DeviceView)}
    {e : DevId × DeviceView} (h : e ∈ insertView d v l) : e.1 = d ∨ e ∈ l := by
  induction l with
  | nil => simp_all [insertView]
  | cons x rest ih =>
    obtain ⟨x, u⟩ := x
    simp only [insertView] at h
    split at h
    · simp at h
      rcases h with rfl | h | h <;> simp_all
    · split at h
      · simp at h
        rcases h with rfl | h <;> simp_all
      · simp only [List.mem_cons] at h ⊢
        rcases h with h | h
        · exact .inr (.inl h)
        · rcases ih h with h | h
          · exact .inl h
          · exact .inr (.inr h)

/-- Writing a device's entry keeps the handles strictly rising. -/
theorem insertView_sorted (d : DevId) (v : DeviceView) {l : List (DevId × DeviceView)}
    (h : devicesSorted l) : devicesSorted (insertView d v l) := by
  induction l with
  | nil => simp [insertView]
  | cons x rest ih =>
    obtain ⟨x, u⟩ := x
    obtain ⟨hx, hr⟩ := List.pairwise_cons.mp h
    simp only [insertView]
    split
    · rename_i hlt
      refine List.pairwise_cons.mpr ⟨fun e he => ?_, h⟩
      rcases List.mem_cons.mp he with rfl | he
      · exact hlt
      · exact Nat.lt_trans hlt (hx e he)
    · split
      · rename_i he
        subst he
        exact List.pairwise_cons.mpr ⟨hx, hr⟩
      · rename_i hlt hne
        refine List.pairwise_cons.mpr ⟨fun e he => ?_, ih hr⟩
        rcases mem_insertView he with h1 | h1
        · have : x.handle ≠ d.handle := fun hc => hne (by cases x; cases d; simp_all)
          show x.handle < e.1.handle
          rw [h1]
          omega
        · exact hx e h1

/-- What a device shows after its own entry is written. -/
@[simp] theorem State.writeView_view_same (s : State) (d : DevId) (v : DeviceView) :
    (s.writeView d v).view d = v := by
  simp [State.view, lookupView_insertView_same]

/-- A device shows the same after another's entry is written. -/
theorem State.writeView_view_other (s : State) {c d : DevId} (h : d ≠ c) (v : DeviceView) :
    (s.writeView d v).view c = s.view c := by
  simp [State.view, lookupView_insertView_other h]

@[simp] theorem State.dropHandleResult_view (s : State) (d : DevId) :
    s.dropHandleResult.view d = s.view d := by
  simp [State.view]

/-- The called device shows what its call left. -/
@[simp] theorem State.afterHandle_view_same (s : State) (d : DevId) (v : DeviceView) :
    (s.afterHandle d v).view d = v := by
  simp [State.afterHandle]

/-- A call changes no other device. -/
theorem State.afterHandle_view_other (s : State) {c d : DevId} (h : d ≠ c) (v : DeviceView) :
    (s.afterHandle d v).view c = s.view c := by
  simp [State.afterHandle, State.writeView_view_other _ h]

/-! ### Devices that do not return -/

theorem State.hungSummary_eq_none {s : State} {l : List DevId} :
    s.hungSummary l = none ↔ ∀ d ∈ l, (s.view d).summaryReturns = true := by
  simp [State.hungSummary]

/-- The block is stuck in the call on a device of the list, which does not return. -/
theorem State.hungSummary_eq_some {s : State} {l : List DevId} {d : DevId} (h : s.hungSummary l = some d) :
    d ∈ l ∧ (s.view d).summaryReturns = false :=
  ⟨List.mem_of_find?_eq_some h, by simpa using List.find?_some h⟩

/-- `set_polling_address` changes one field of one device. -/
theorem State.setPollingAddress_view_same (s : State) (d : DevId) (k : Key) :
    (s.setPollingAddress d k).view d = { s.view d with pollingAddress := k } := by
  simp [State.setPollingAddress]

theorem State.setPollingAddress_view_other (s : State) {c d : DevId} (h : d ≠ c) (k : Key) :
    (s.setPollingAddress d k).view c = s.view c := by
  simp [State.setPollingAddress, State.writeView_view_other _ h]

end Sys2Proof.Machine
end

