-- ==== Sys2Proof/Laws/Router.lean ====
section
/-! SUPPORT. The router: the registry's occupied slots, the directory lookup, the resolution of a
request, and what a transaction can do. -/

namespace Sys2Proof.Machine

/-! ### Occupied slots -/

theorem mem_occupied {s : State} {k : Key} {d : DevId} : (k, d) ∈ s.occupied ↔ s.readReg k = some d := by
  simp [State.occupied]

theorem finRange_rising (n : Nat) : (List.finRange n).Pairwise fun a b => a < b := by
  rw [List.finRange, List.pairwise_ofFn]
  exact fun i j h => h

/-- The occupied slots come by rising key (R85). -/
theorem occupied_rising (s : State) : s.occupied.Pairwise fun a b => a.1 < b.1 := by
  unfold State.occupied
  rw [List.pairwise_filterMap]
  refine (finRange_rising 16).imp ?_
  intro a b h x hx y hy
  obtain ⟨d, _, rfl⟩ := Option.map_eq_some_iff.mp hx
  obtain ⟨e, _, rfl⟩ := Option.map_eq_some_iff.mp hy
  exact h

/-- A scan's records come strictly ascending by address (R25, R85). -/
theorem scanList_ascending (s : State) : ascending s.scanList := by
  unfold State.scanList
  rw [ascending, List.pairwise_map]
  exact (occupied_rising s).imp fun h => h

theorem mem_scanList {s : State} {e : Summary} :
    e ∈ s.scanList ↔ ∃ d, s.readReg e.address = some d ∧ e = s.summaryAt e.address d := by
  simp only [State.scanList, List.mem_map, Prod.exists, mem_occupied]
  constructor
  · rintro ⟨k, d, h, rfl⟩
    exact ⟨d, h, rfl⟩
  · rintro ⟨d, h, he⟩
    exact ⟨e.address, d, h, he.symm⟩

/-! ### Directory lookup (R88) -/

theorem uniqueId_toList (u : UniqueId) : u.toList = u[0] :: u.toList.drop 1 := by
  have h : u.toList.length = 5 := by simp
  match hl : u.toList, h with
  | a :: rest, _ =>
    have : u[0] = u.toList[0]'(by simp) := by simp
    simp only [hl] at this
    simp [this]

theorem longAddressMatches_iff {a : Bytes} {u : UniqueId} :
    longAddressMatches a u.toList = true ↔
      ∃ b0 rest, a = b0 :: rest ∧ b0 &&& 0x7F#8 = u[0] &&& 0x7F#8 ∧ rest = u.toList.drop 1 := by
  rw [uniqueId_toList u]
  cases a with
  | nil => simp [longAddressMatches]
  | cons b rest => simp [longAddressMatches, and_comm]

theorem answersAt_iff {s : State} {a : Bytes} {k : Key} :
    AnswersAt s a k ↔ ∃ d, (k, d) ∈ s.occupied ∧ s.answersTo a (k, d) = true := by
  simp only [AnswersAt, State.answersTo, longAddressMatches_iff, mem_occupied]

/-- The directory gives the lowest key whose device answers (R88). -/
theorem directoryKey_eq_some {s : State} {a : Bytes} {k : Key} :
    s.directoryKey a = some k ↔ AnswersAt s a k ∧ ∀ j < k, ¬ AnswersAt s a j := by
  unfold State.directoryKey
  constructor
  · intro h
    obtain ⟨⟨k', d⟩, hf, rfl⟩ := Option.map_eq_some_iff.mp h
    obtain ⟨hp, as, bs, hs, hn⟩ := List.find?_eq_some_iff_append.mp hf
    refine ⟨answersAt_iff.mpr ⟨d, by simp [hs], hp⟩, fun j hj hans => ?_⟩
    obtain ⟨e, he, hm⟩ := answersAt_iff.mp hans
    have hr := occupied_rising s
    rw [hs] at he hr
    rcases List.mem_append.mp he with h1 | h1
    · have := hn _ h1
      simp [hm] at this
    · have hr2 := (List.pairwise_append.mp hr).2.1
      rcases List.mem_cons.mp h1 with h2 | h2
      · cases h2
        exact absurd hj (by simp)
      · have := (List.pairwise_cons.mp hr2).1 _ h2
        exact absurd hj (not_lt_of_gt this)
  · rintro ⟨hans, hmin⟩
    obtain ⟨d, hd, hm⟩ := answersAt_iff.mp hans
    cases hf : s.occupied.find? (s.answersTo a) with
    | none => exact absurd hm (by simpa using List.find?_eq_none.mp hf _ hd)
    | some e =>
      obtain ⟨j, c⟩ := e
      have hj : AnswersAt s a j :=
        answersAt_iff.mpr ⟨c, List.mem_of_find?_eq_some hf, List.find?_some hf⟩
      obtain ⟨hp, as, bs, hs, hn⟩ := List.find?_eq_some_iff_append.mp hf
      have hr := occupied_rising s
      rw [hs] at hd hr
      have hjk : ¬ j < k := fun hlt => hmin j hlt hj
      rcases List.mem_append.mp hd with h1 | h1
      · have := hn _ h1
        simp [hm] at this
      · rcases List.mem_cons.mp h1 with h2 | h2
        · cases h2
          rfl
        · have := (List.pairwise_cons.mp (List.pairwise_append.mp hr).2.1).1 _ h2
          exact absurd this hjk

theorem directoryKey_eq_none {s : State} {a : Bytes} :
    s.directoryKey a = none ↔ ∀ k, ¬ AnswersAt s a k := by
  unfold State.directoryKey
  simp only [Option.map_eq_none_iff, List.find?_eq_none, answersAt_iff]
  constructor
  · rintro h k ⟨d, hd, hm⟩
    exact h _ hd hm
  · rintro h ⟨k, d⟩ hd hm
    exact h k ⟨d, hd, hm⟩

/-! ### Resolution (R86 to R88) -/

theorem hasWidth_short {st : Byte} {w : Nat} (h : hasWidth st w) : isShortStart st = true ↔ w = 1 := by
  rcases h with ⟨rfl, rfl⟩ | ⟨rfl, rfl⟩ | ⟨rfl, rfl⟩ | ⟨rfl, rfl⟩ <;> decide

theorem hasWidth_one_or_five {st : Byte} {w : Nat} (h : hasWidth st w) : w = 1 ∨ w = 5 := by
  rcases h with ⟨_, rfl⟩ | ⟨_, rfl⟩ | ⟨_, rfl⟩ | ⟨_, rfl⟩ <;> simp

/-- The key a frame resolves to is the one the rules give. -/
theorem resolveKey_eq_some {s : State} {p : ParsedFrame} (hw : hasWidth p.start p.address.length)
    {hint : Option Int} {k : Key} : s.resolveKey p hint = some k ↔ Resolves s p hint k := by
  unfold State.resolveKey Resolves
  rcases hasWidth_one_or_five hw with h1 | h5
  · obtain ⟨b, hb⟩ := List.length_eq_one_iff.mp h1
    rw [if_pos ((hasWidth_short hw).mpr h1)]
    simp only [hb, List.headD_cons, Option.some.injEq, List.cons.injEq, and_true, exists_eq_left',
      List.length_cons, List.length_nil, Nat.zero_add, Nat.reduceEqDiff, false_and, or_false]
    rw [← keyOfByte_val]
    exact ⟨fun h => by rw [h], fun h => Fin.ext h.symm⟩
  · have hn : ¬ isShortStart p.start = true := fun h => by
      have := (hasWidth_short hw).mp h
      omega
    have hs : ¬ ∃ b, p.address = [b] ∧ k.val = b.toNat % 16 := by
      rintro ⟨b, hb, _⟩
      simp [hb] at h5
    rw [if_neg hn]
    cases hr : s.params.longRoute with
    | hint =>
      simp only [hs, h5, true_and, reduceCtorEq, false_and, or_false, false_or]
      cases hint with
      | none => simp
      | some h => simp [keyOf_eq_iff]
    | directory =>
      simp only [hs, h5, true_and, reduceCtorEq, false_and, false_or]
      exact directoryKey_eq_some

theorem resolveKey_eq_none {s : State} {p : ParsedFrame} (hw : hasWidth p.start p.address.length)
    {hint : Option Int} : s.resolveKey p hint = none ↔ ∀ k, ¬ Resolves s p hint k := by
  constructor
  · intro h k hk
    rw [(resolveKey_eq_some hw).mpr hk] at h
    cases h
  · intro h
    cases hr : s.resolveKey p hint with
    | none => rfl
    | some k => exact absurd ((resolveKey_eq_some hw).mp hr) (h k)

/-- A request resolves to one key at most. -/
theorem resolves_unique {s : State} {p : ParsedFrame} (hw : hasWidth p.start p.address.length)
    {hint : Option Int} {j k : Key} (hj : Resolves s p hint j) (hk : Resolves s p hint k) : j = k := by
  have h1 := (resolveKey_eq_some hw).mpr hj
  have h2 := (resolveKey_eq_some hw).mpr hk
  rw [h1] at h2
  exact Option.some.inj h2

/-! ### Transactions (R89) -/

/-- With a first match at key `k`, the slots asked are those up to `k` (R88). -/
theorem askedUpTo_eq_filter {f : Key × DevId → Bool} {l : List (Key × DevId)} {k : Key} {d : DevId}
    (hr : l.Pairwise fun a b => a.1 < b.1) (hm : (k, d) ∈ l) (hf : f (k, d) = true)
    (hn : ∀ e ∈ l, e.1 < k → f e = false) : askedUpTo f l = l.filter fun e => decide (e.1 ≤ k) := by
  induction l with
  | nil => cases hm
  | cons e rest ih =>
    obtain ⟨h1, h2⟩ := List.pairwise_cons.mp hr
    rcases List.mem_cons.mp hm with rfl | h
    · rw [askedUpTo, if_pos hf, List.filter_cons_of_pos (by simp), List.filter_eq_nil_iff.mpr]
      exact fun a ha => by simpa using h1 a ha
    · have hlt := h1 _ h
      rw [askedUpTo, if_neg (by simp [hn e (by simp) hlt]), List.filter_cons_of_pos (by simpa using le_of_lt hlt),
        ih h2 h fun a ha => hn a (by simp [ha])]

/-- With no match every slot is asked (R88). -/
theorem askedUpTo_eq_self {f : Key × DevId → Bool} {l : List (Key × DevId)} (hn : ∀ e ∈ l, f e = false) :
    askedUpTo f l = l := by
  induction l with
  | nil => rfl
  | cons e rest ih =>
    rw [askedUpTo, if_neg (by simp [hn e]), ih fun a ha => hn a (by simp [ha])]

/-- The slots asked are those below which nothing matches (R88). -/
theorem mem_askedUpTo {f : Key × DevId → Bool} {l : List (Key × DevId)} (hr : l.Pairwise fun a b => a.1 < b.1)
    {e : Key × DevId} : e ∈ askedUpTo f l ↔ e ∈ l ∧ ∀ x ∈ l, x.1 < e.1 → f x = false := by
  induction l with
  | nil => simp [askedUpTo]
  | cons x rest ih =>
    obtain ⟨h1, h2⟩ := List.pairwise_cons.mp hr
    have hx : ∀ y ∈ rest, ¬ y.1 < x.1 := fun y hy => not_lt_of_gt (h1 y hy)
    simp only [askedUpTo]
    cases hf : f x with
    | true =>
      simp only [if_true, List.mem_singleton]
      constructor
      · rintro rfl
        refine ⟨by simp, fun y hy hlt => ?_⟩
        rcases List.mem_cons.mp hy with rfl | hy
        · exact absurd hlt (lt_irrefl _)
        · exact absurd hlt (hx y hy)
      · rintro ⟨he, hn⟩
        rcases List.mem_cons.mp he with rfl | he
        · rfl
        · exact absurd (hn x (by simp) (h1 e he)) (by simp [hf])
    | false =>
      simp only [Bool.false_eq_true, if_false, List.mem_cons, ih h2]
      constructor
      · rintro (rfl | ⟨he, hn⟩)
        · refine ⟨.inl rfl, fun y hy hlt => ?_⟩
          rcases hy with rfl | hy
          · exact hf
          · exact absurd hlt (hx y hy)
        · refine ⟨.inr he, fun y hy hlt => ?_⟩
          rcases hy with rfl | hy
          · exact hf
          · exact hn y hy hlt
      · rintro ⟨rfl | he, hn⟩
        · exact .inl rfl
        · exact .inr ⟨he, fun y hy hlt => hn y (.inr hy) hlt⟩

/-- The occupied slots that pass a test on their key, as the keys of the registry that do. -/
theorem map_summary_filter_occupied (s : State) (f : Key → Bool) :
    (s.occupied.filter fun e => f e.1).map (fun e => Activity.summary e.2) =
      ((List.finRange 16).filter f).filterMap fun j => (s.readReg j).map Activity.summary := by
  unfold State.occupied
  rw [List.filter_filterMap, List.map_filterMap, List.filterMap_filter]
  refine List.filterMap_congr fun j _ => ?_
  cases s.readReg j <;> cases hj : f j <;> simp [Option.filter, hj]

/-- The calls a resolution makes are those the rules give for the key it finds (R88, R96). -/
theorem resolveCalls_eq {s : State} {p : ParsedFrame} (hw : hasWidth p.start p.address.length)
    (hint : Option Int) : s.resolveCalls p = resolutionCalls s p (s.resolveKey p hint) := by
  unfold State.resolveCalls State.askedDevices State.resolveKey resolutionCalls
  by_cases hsh : isShortStart p.start = true
  · have := (hasWidth_short hw).mp hsh
    rw [if_pos hsh, if_neg (by omega), List.map_nil]
  · have h5 : p.address.length = 5 :=
      (hasWidth_one_or_five hw).resolve_left fun h => hsh ((hasWidth_short hw).mpr h)
    rw [if_neg hsh, if_neg hsh]
    cases hr : s.params.longRoute with
    | hint => rw [if_neg (by simp), List.map_nil]
    | directory =>
      rw [if_pos ⟨h5, rfl⟩, ← map_summary_filter_occupied, List.map_map]
      cases hk : s.directoryKey p.address with
      | none =>
        have hn := directoryKey_eq_none.mp hk
        rw [askedUpTo_eq_self, List.filter_eq_self.mpr (by simp)]
        · rfl
        rintro ⟨j, d⟩ he
        by_contra hne
        exact hn j (answersAt_iff.mpr ⟨d, he, by simpa using hne⟩)
      | some k =>
        obtain ⟨hans, hmin⟩ := directoryKey_eq_some.mp hk
        obtain ⟨d, hd, hm⟩ := answersAt_iff.mp hans
        rw [askedUpTo_eq_filter (occupied_rising s) hd hm]
        · simp [Function.comp_def]
        · rintro ⟨j, c⟩ he hlt
          by_contra hne
          exact hmin j hlt (answersAt_iff.mpr ⟨c, he, by simpa using hne⟩)

/-- The devices asked are those the rules say are asked (R88, R96). -/
theorem mem_askedDevices {s : State} {p : ParsedFrame} (hw : hasWidth p.start p.address.length) {d : DevId} :
    d ∈ s.askedDevices p ↔ Asked s p d := by
  unfold State.askedDevices Asked
  by_cases hsh : isShortStart p.start = true
  · have := (hasWidth_short hw).mp hsh
    rw [if_pos hsh]
    simp [this]
  · have h5 : p.address.length = 5 :=
      (hasWidth_one_or_five hw).resolve_left fun h => hsh ((hasWidth_short hw).mpr h)
    rw [if_neg hsh]
    cases hr : s.params.longRoute with
    | hint => simp
    | directory =>
      simp only [List.mem_map, Prod.exists, exists_eq_right, mem_askedUpTo (occupied_rising s), mem_occupied, h5,
        true_and]
      refine exists_congr fun j => and_congr_right fun _ => ⟨fun hn k hk hans => ?_, fun hn x hx hlt => ?_⟩
      · obtain ⟨c, hc, hm⟩ := answersAt_iff.mp hans
        exact absurd (hn (k, c) hc hk) (by simp [hm])
      · by_contra hne
        exact hn x.1 hlt (answersAt_iff.mpr ⟨x.2, hx, by simpa using hne⟩)

/-- No `summary` call of the resolution hangs exactly if every device asked returns (U6). -/
theorem hungSummary_askedDevices_eq_none {s : State} {p : ParsedFrame} (hw : hasWidth p.start p.address.length) :
    s.hungSummary (s.askedDevices p) = none ↔ AskedReturn s p := by
  simp only [State.hungSummary_eq_none, AskedReturn, mem_askedDevices hw]

theorem SameRoute.refl (o : Host.Outcome State Fault Refusal) : SameRoute o o :=
  ⟨fun _ => .rfl, fun _ => .rfl, fun u v hu hv => by rw [hu] at hv; cases hv; exact fun _ => .rfl, .rfl, .rfl⟩

/-- Everything a transaction can do: it completes, without a `handle` call, with the block and the devices
unchanged, or with one `handle` call on a registered device; or it is stuck in a call that never returns. -/
theorem transact_cases (raw : Bytes) (hint : Option Int) (s : State) :
    (transact raw hint s = .next (s.finish [] .emptyGarbled (.bytes [])) ∧ ¬ ∃ f t, FrameAt raw f t) ∨
    ∃ p t, FrameAt raw p t ∧
      ((∃ d, transact raw hint s = .fault (.summaryNeverReturns d) ∧ Asked s p d ∧
          (s.view d).summaryReturns = false) ∨
        (AskedReturn s p ∧
          ((transact raw hint s = .next (s.finish (s.resolveCalls p ++ [.wait]) .emptyNoRoute (.bytes [])) ∧
              ∀ k, ¬ Resolves s p hint k) ∨
            ∃ k, Resolves s p hint k ∧
              ((transact raw hint s = .next (s.finish (s.resolveCalls p ++ [.wait]) .emptyMiss (.bytes [])) ∧
                  s.readReg k = none) ∨
                ∃ d, s.readReg k = some d ∧
                  ((transact raw hint s = .fault (.handleNeverReturns d) ∧ s.nextHandle = .never) ∨
                    ∃ h, s.nextHandle = .returns h ∧
                      ((transact raw hint s = .next ((s.afterHandle d h.after).finish
                            (s.resolveCalls p ++ [.handle d p.toRequest, .wait]) .emptyDevice (.bytes [])) ∧
                          ¬ ∃ f t, FrameAt h.reply f t) ∨
                        ∃ r t', FrameAt h.reply r t' ∧
                          transact raw hint s = .next ((s.afterHandle d h.after).finish
                            (s.resolveCalls p ++ [.handle d p.toRequest, .wait]) .ok
                            (.bytes (encodeFrame p.preambles r.start r.address r.command r.data))))))))) := by
  unfold transact
  cases hp : parseFrame raw with
  | error e => exact .inl ⟨rfl, parseFrame_error hp⟩
  | ok p =>
    obtain ⟨t, hf⟩ := parseFrame_eq_ok.mp hp
    refine .inr ⟨p, t, hf, ?_⟩
    simp only [route]
    cases hs : s.hungSummary (s.askedDevices p) with
    | some d =>
      obtain ⟨hd, hv⟩ := State.hungSummary_eq_some hs
      exact .inl ⟨d, rfl, (mem_askedDevices hf.width).mp hd, hv⟩
    | none =>
      refine .inr ⟨(hungSummary_askedDevices_eq_none hf.width).mp hs, ?_⟩
      simp only [deliver]
      cases hk : s.resolveKey p hint with
      | none => exact .inl ⟨rfl, (resolveKey_eq_none hf.width).mp hk⟩
      | some k =>
        refine .inr ⟨k, (resolveKey_eq_some hf.width).mp hk, ?_⟩
        simp only []
        cases hr : s.readReg k with
        | none => exact .inl ⟨rfl, rfl⟩
        | some d =>
          refine .inr ⟨d, rfl, ?_⟩
          simp only [transactWith]
          cases hn : s.nextHandle with
          | never => exact .inl ⟨rfl, rfl⟩
          | returns h =>
            refine .inr ⟨h, rfl, ?_⟩
            simp only [reframe]
            cases hq : parseFrame h.reply with
            | error e => exact .inl ⟨rfl, parseFrame_error hq⟩
            | ok r =>
              obtain ⟨t', hr'⟩ := parseFrame_eq_ok.mp hq
              exact .inr ⟨r, t', hr', rfl⟩

/-- If a transaction answers a next state, then one of these holds. -/
theorem transact_next {raw : Bytes} {hint : Option Int} {s u : State} (h : transact raw hint s = .next u) :
    (u = s.finish [] .emptyGarbled (.bytes []) ∧ ¬ ∃ f t, FrameAt raw f t) ∨
    ∃ p t, FrameAt raw p t ∧ AskedReturn s p ∧
      ((u = s.finish (s.resolveCalls p ++ [.wait]) .emptyNoRoute (.bytes []) ∧ ∀ k, ¬ Resolves s p hint k) ∨
        ∃ k, Resolves s p hint k ∧
          ((u = s.finish (s.resolveCalls p ++ [.wait]) .emptyMiss (.bytes []) ∧ s.readReg k = none) ∨
            ∃ d h, s.readReg k = some d ∧ s.nextHandle = .returns h ∧
              ((u = (s.afterHandle d h.after).finish
                    (s.resolveCalls p ++ [.handle d p.toRequest, .wait]) .emptyDevice (.bytes []) ∧
                  ¬ ∃ f t, FrameAt h.reply f t) ∨
                ∃ r t', FrameAt h.reply r t' ∧
                  u = (s.afterHandle d h.after).finish
                    (s.resolveCalls p ++ [.handle d p.toRequest, .wait]) .ok
                    (.bytes (encodeFrame p.preambles r.start r.address r.command r.data))))) := by
  rcases transact_cases raw hint s with ⟨h1, hn⟩ | ⟨p, t, hf, ⟨_, h1, _⟩ | ⟨ha, ⟨h1, hn⟩ | ⟨k, hk, ⟨h1, hr⟩ |
      ⟨d, hr, ⟨h1, _⟩ | ⟨g, hg, ⟨h1, hn⟩ | ⟨r, t', hq, h1⟩⟩⟩⟩⟩⟩ <;> rw [h1] at h <;> cases h
  · exact .inl ⟨rfl, hn⟩
  · exact .inr ⟨p, t, hf, ha, .inl ⟨rfl, hn⟩⟩
  · exact .inr ⟨p, t, hf, ha, .inr ⟨k, hk, .inl ⟨rfl, hr⟩⟩⟩
  · exact .inr ⟨p, t, hf, ha, .inr ⟨k, hk, .inr ⟨d, g, hr, hg, .inl ⟨rfl, hn⟩⟩⟩⟩
  · exact .inr ⟨p, t, hf, ha, .inr ⟨k, hk, .inr ⟨d, g, hr, hg, .inr ⟨r, t', hq, rfl⟩⟩⟩⟩

/-- A frame whose resolution does not hang goes to the slot it resolves to. -/
theorem transact_eq_deliver {raw t : Bytes} {p : ParsedFrame} {s : State} (hf : FrameAt raw p t)
    (ha : AskedReturn s p) (hint : Option Int) : transact raw hint s = deliver (s.resolveKey p hint) p s := by
  simp only [transact, parseFrame_eq_ok.mpr ⟨_, hf⟩, route, (hungSummary_askedDevices_eq_none hf.width).mpr ha]

/-- Two outcomes of the delivery of requests that were resolved by the same calls to the same key. -/
theorem deliver_sameRoute {s : State} {p q : ParsedFrame} (hc : s.askedDevices p = s.askedDevices q)
    (key : Option Key) : SameRoute (deliver key p s) (deliver key q s) := by
  have hcalls : s.resolveCalls p = s.resolveCalls q := by simp [State.resolveCalls, hc]
  have hno : ∀ d c, Activity.handle d c ∉ s.resolveCalls q := by simp [State.resolveCalls]
  simp only [deliver, hcalls]
  split
  · exact .refl _
  · split
    · exact .refl _
    · simp only [transactWith, reframe]
      split
      · exact .refl _
      · cases parseFrame _ <;>
          refine ⟨fun d => ?_, fun d => by simp [complete], ?_, ?_, ?_⟩ <;>
          simp [Reached, EndedWith, complete, hno]

/-- Two frames that resolve to the same key by the same calls are routed alike. -/
theorem transact_sameRoute {s : State} {raw raw' t t' : Bytes} {p q : ParsedFrame} {hint hint' : Option Int}
    (h1 : FrameAt raw p t) (h2 : FrameAt raw' q t') (hk : s.resolveKey p hint = s.resolveKey q hint')
    (hc : s.askedDevices p = s.askedDevices q) : SameRoute (transact raw hint s) (transact raw' hint' s) := by
  simp only [transact, parseFrame_eq_ok.mpr ⟨_, h1⟩, parseFrame_eq_ok.mpr ⟨_, h2⟩, route, hk, hc]
  split
  · exact .refl _
  · exact deliver_sameRoute hc _

/-- Everything SCAN can do: it lists the registry, or it is stuck in a call that never returns. -/
theorem scan_cases (s : State) :
    ((∀ k d, s.readReg k = some d → (s.view d).summaryReturns = true) ∧
      exec .scan s = .next ((s.writeScanCache s.scanList).finish
        (s.occupied.map (fun e => .summary e.2) ++ [.wait]) .ok (.summaries s.scanList))) ∨
    ∃ k d, s.readReg k = some d ∧ (s.view d).summaryReturns = false ∧
      exec .scan s = .fault (.summaryNeverReturns d) := by
  simp only [exec, execScan]
  cases h : s.hungSummary (s.occupied.map Prod.snd) with
  | none =>
    refine .inl ⟨fun k d hk => State.hungSummary_eq_none.mp h d ?_, rfl⟩
    exact List.mem_map.mpr ⟨(k, d), mem_occupied.mpr hk, rfl⟩
  | some d =>
    obtain ⟨hd, hv⟩ := State.hungSummary_eq_some h
    obtain ⟨⟨k, c⟩, hk, rfl⟩ := List.mem_map.mp hd
    exact .inr ⟨k, c, mem_occupied.mp hk, hv, rfl⟩

/-- If SCAN answers a next state, it is this one, and every device returned. -/
theorem scan_next {s t : State} (h : exec .scan s = .next t) :
    t = (s.writeScanCache s.scanList).finish (s.occupied.map (fun e => .summary e.2) ++ [.wait]) .ok
        (.summaries s.scanList) ∧ ∀ k d, s.readReg k = some d → (s.view d).summaryReturns = true := by
  rcases scan_cases s with ⟨hr, h1⟩ | ⟨_, _, _, _, h1⟩ <;> rw [h1] at h <;> cases h
  exact ⟨rfl, hr⟩

/-- An operation that puts a frame on the bus is the transaction of its bytes. -/
theorem exec_busFrame {i : Instr} {raw : Bytes} {hint : Option Int} (h : i.busFrame = some (raw, hint))
    (s : State) : exec i s = transact raw hint s := by
  cases i <;> simp only [Instr.busFrame, Option.some.injEq, Prod.mk.injEq, reduceCtorEq] at h <;>
    obtain ⟨rfl, rfl⟩ := h <;>
    simp [exec, execTransact, execFrameShortReq, execFrameShortRsp, execFrameLongReq, execFrameLongRsp,
      wireBytes_eq]

end Sys2Proof.Machine
end

