-- ==== Sys2Proof/Laws/Exec.lean ====
section
/-! SUPPORT. What each meaning can do, said once: the cases of the operations that have several, the
fields of `CFG`, and what a transaction leaves as it was. -/

namespace Sys2Proof.Machine

/-! ### The fields of CFG (R19 to R22, R78) -/

@[simp] theorem cfgFmt_cfgWith : ∀ (f : BitVec 1) (p : BitVec 3) (c : BitVec 8), cfgFmt (cfgWith f p c) = f := by
  decide

@[simp] theorem cfgPre_cfgWith : ∀ (f : BitVec 1) (p : BitVec 3) (c : BitVec 8), cfgPre (cfgWith f p c) = p := by
  decide

@[simp] theorem cfgReserved_cfgWith :
    ∀ (f : BitVec 1) (p : BitVec 3) (c : BitVec 8), cfgReserved (cfgWith f p c) = cfgReserved c := by
  decide

/-- The clamp, as a number. -/
theorem clampPreambles_toNat (n : Int) : ((clampPreambles n).toNat : Int) = min (max n 3) 7 := by
  simp [clampPreambles, Config.preMin, Config.preMax]
  omega

/-- `CFG` after reset holds the two parameters and reserved zeros. -/
theorem resetCfg_fields (p : Params) :
    cfgFmt (resetCfg p) = p.resetFmt ∧ cfgPre (resetCfg p) = p.resetPre ∧ cfgReserved (resetCfg p) = 0#4 := by
  have h : ∀ (f : BitVec 1) (q : BitVec 3),
      cfgFmt (resetCfg ⟨.hint, false, q, f⟩) = f ∧ cfgPre (resetCfg ⟨.hint, false, q, f⟩) = q ∧
        cfgReserved (resetCfg ⟨.hint, false, q, f⟩) = 0#4 := by decide
  exact h p.resetFmt p.resetPre

/-! ### Codec -/

theorem encode_cases (p : Nat) (st : Int) (a : Bytes) (c : Int) (d : Bytes) (s : State) :
    (∃ f, encodeChecked p st a c d = some f ∧
      exec (.encode p st a c d) s = .next (s.finish [] .ok (.bytes f))) ∨
    (encodeChecked p st a c d = none ∧
      exec (.encode p st a c d) s = .next (s.finish [] .argRange .none)) := by
  cases h : encodeChecked p st a c d <;> simp [exec, execEncode, h, complete]

/-- When ENCODE's operands are in range, and what it then gives (R68). -/
theorem encodeChecked_eq_some {p : Nat} {st : Int} {a : Bytes} {c : Int} {d f : Bytes} :
    encodeChecked p st a c d = some f ↔
      ∃ sb cb : Byte, (sb.toNat : Int) = st ∧ (cb.toNat : Int) = c ∧ d.length ≤ 255 ∧
        f = encodeFrame p sb a cb d := by
  constructor
  · intro h
    unfold encodeChecked at h
    split at h
    · rename_i sb cb h1 h2 h3
      exact ⟨sb, cb, (byteOperand_eq_some.mp h1).2.2, (byteOperand_eq_some.mp h2).2.2,
        dataFits_iff.mp h3, (Option.some.inj h).symm⟩
    · cases h
  · rintro ⟨sb, cb, rfl, rfl, hd, rfl⟩
    simp [encodeChecked, dataFits_iff.mpr hd]

theorem decode_cases (raw : Bytes) (s : State) :
    (∃ f t, FrameAt raw f t ∧ exec (.decode raw) s = .next (s.finish [] .ok (.frame f))) ∨
    ((¬ ∃ f t, FrameAt raw f t) ∧ exec (.decode raw) s = .next (s.finish [] .absent .none)) := by
  cases h : parseFrame raw with
  | ok f =>
    obtain ⟨t, ht⟩ := parseFrame_eq_ok.mp h
    exact .inl ⟨f, t, ht, by simp [exec, execDecode, h, complete]⟩
  | error e => exact .inr ⟨parseFrame_error h, by simp [exec, execDecode, h, complete]⟩

theorem decodeRsp_cases (raw : Bytes) (s : State) :
    (∃ f t, FrameAt raw f t ∧
      exec (.decodeRsp raw) s = .next (s.finish [] .ok (.response (splitResponse f)))) ∨
    ((¬ ∃ f t, FrameAt raw f t) ∧ exec (.decodeRsp raw) s = .next (s.finish [] .absent .none)) := by
  cases h : parseFrame raw with
  | ok f =>
    obtain ⟨t, ht⟩ := parseFrame_eq_ok.mp h
    exact .inl ⟨f, t, ht, by simp [exec, execDecodeRsp, h, complete]⟩
  | error e => exact .inr ⟨parseFrame_error h, by simp [exec, execDecodeRsp, h, complete]⟩

/-! ### Builder -/

/-- The long address of a 5-byte unique id: bit 7 of byte 0 set, the rest as it is (R67). -/
theorem longAddress_uniqueId (u : UniqueId) :
    longAddress u.toList = (u[0] ||| 0x80#8) :: u.toList.drop 1 := by
  have h : u.toList.length = 5 := by simp
  have h0 : u[0] = u.toList[0]'(by simp) := by simp
  match hl : u.toList, h with
  | [a, b, c, d, e], _ =>
    simp only [hl] at h0
    simp [longAddress, h0]

/-- In an ascending cache the entry at a key is the one that is found there (R81). -/
theorem cachedSummary_eq_some {s : State} {e : Summary} (ha : ascending s.scanCache) (hm : e ∈ s.scanCache) :
    s.cachedSummary e.address = some e := by
  unfold State.cachedSummary
  cases hf : s.scanCache.find? fun x => decide (x.address = e.address) with
  | none => exact absurd (List.find?_eq_none.mp hf e hm) (by simp)
  | some g =>
    have hg : g.address = e.address := by simpa using List.find?_some hf
    obtain ⟨i, hi, hgi⟩ := List.getElem_of_mem (List.mem_of_find?_eq_some hf)
    obtain ⟨j, hj, hej⟩ := List.getElem_of_mem hm
    have hp := List.pairwise_iff_getElem.mp ha
    have hij : i = j := by
      rcases Nat.lt_trichotomy i j with h | h | h
      · have := hp i j hi hj h
        rw [hgi, hej, hg] at this
        exact absurd this (lt_irrefl _)
      · exact h
      · have := hp j i hj hi h
        rw [hgi, hej, hg] at this
        exact absurd this (lt_irrefl _)
    subst hij
    rw [← hgi, ← hej]

theorem cachedSummary_eq_none {s : State} {k : Key} (h : ∀ e ∈ s.scanCache, e.address ≠ k) :
    s.cachedSummary k = none := by
  unfold State.cachedSummary
  rw [List.find?_eq_none]
  intro e he
  simpa using h e he

/-- BUILD with its operands in range. -/
theorem execBuild_inRange (a : Int) (cmd : Byte) {data : Bytes} (hd : data.length ≤ 255) (s : State) :
    exec (.build a cmd.toNat data) s = buildInRange a cmd data s := by
  simp [exec, execBuild, dataFits_iff.mpr hd]

/-- Everything BUILD can do. -/
theorem build_cases (a c : Int) (data : Bytes) (s : State) :
    exec (.build a c data) s = .next (s.finish [] .argRange .none) ∨
    ∃ cmd : Byte, (cmd.toNat : Int) = c ∧ data.length ≤ 255 ∧
      (((cfgFmt s.cfg = 0#1 ∨ (s.params.buildFallbackShort = true ∧ s.cachedSummary (keyOf a) = none)) ∧
          exec (.build a c data) s = .next (s.finish [] .ok (.bytes (buildShort s a cmd data)))) ∨
        (cfgFmt s.cfg = 1#1 ∧ ∃ e, s.cachedSummary (keyOf a) = some e ∧
          exec (.build a c data) s = .next (s.finish [] .ok (.bytes (buildLong s e cmd data)))) ∨
        (cfgFmt s.cfg = 1#1 ∧ s.params.buildFallbackShort = false ∧ s.cachedSummary (keyOf a) = none ∧
          exec (.build a c data) s = .next (s.finish [] .resolveErr .none))) := by
  simp only [exec, execBuild]
  split
  · rename_i cmd h1 h2
    refine .inr ⟨cmd, (byteOperand_eq_some.mp h1).2.2, dataFits_iff.mp h2, ?_⟩
    simp only [buildInRange]
    split
    · exact .inl ⟨.inl (by assumption), rfl⟩
    · rename_i hf
      have hone : ∀ b : BitVec 1, b ≠ 0#1 → b = 1#1 := by decide
      split
      · exact .inr (.inl ⟨hone _ hf, _, by assumption, rfl⟩)
      · split
        · exact .inl ⟨.inr ⟨by assumption, by assumption⟩, rfl⟩
        · rename_i hb
          exact .inr (.inr ⟨hone _ hf, by simpa using hb, by assumption, rfl⟩)
  · exact .inl rfl

/-! ### Router -/

theorem move_cases (o n : Int) (s : State) :
    (∃ d, s.readReg (keyOf o) = some d ∧
      exec (.move o n) s = .next ((((s.writeReg (keyOf o) none).writeReg (keyOf n) (some d)).setPollingAddress
        d (keyOf n)).finish [.setPollingAddress d (keyOf n)] .ok .none)) ∨
    (s.readReg (keyOf o) = none ∧ exec (.move o n) s = .next (s.finish [] .moveEmpty .none)) := by
  cases h : s.readReg (keyOf o) <;> simp [exec, execMove, h, complete]

/-- A transaction leaves the block's state, the parameters and the inputs as they were (R89, R93). -/
theorem transact_keeps {raw : Bytes} {hint : Option Int} {s u : State} (h : transact raw hint s = .next u) :
    u.params = s.params ∧ sameBlockState s u ∧ u.inputs = s.inputs := by
  rcases transact_next h with ⟨rfl, _⟩ | ⟨_, _, _, _, ⟨rfl, _⟩ | ⟨_, _, ⟨rfl, _⟩ | ⟨_, _, _, _, ⟨rfl, _⟩ |
      ⟨_, _, _, rfl⟩⟩⟩⟩ <;> simp [sameBlockState]

/-- What a transaction does depends on the request it parses to, not on its checksum or on what follows
the frame (R75, R92). -/
theorem transact_congr {raw raw' : Bytes} {p q : ParsedFrame} {t t' : Bytes} (h1 : FrameAt raw p t)
    (h2 : FrameAt raw' q t') (h : p.toRequest = q.toRequest) (hint : Option Int) (s : State) :
    transact raw hint s = transact raw' hint s := by
  unfold transact
  rw [parseFrame_eq_ok.mpr ⟨_, h1⟩, parseFrame_eq_ok.mpr ⟨_, h2⟩]
  simp only [ParsedFrame.toRequest, ParsedRequest.mk.injEq] at h
  obtain ⟨e1, e2, e3, e4, e5, e6⟩ := h
  simp only [route, deliver, State.resolveKey, State.resolveCalls, State.askedDevices, transactWith,
    ParsedFrame.toRequest, e1, e2, e3, e4, e5, e6]

/-! ### Steps -/

/-- Everything a step that answers a next state can have done. -/
theorem step_cases {s t : State} (h : step s = .next t) :
    (s.inputs = [] ∧ t = s) ∨
    (∃ w rest i, s.inputs = .word w :: rest ∧ decode w = .ok i ∧ exec i (s.withInputs rest) = .next t) ∨
    (∃ w rest why, s.inputs = .word w :: rest ∧ decode w = .error (.frame why) ∧
      t = (s.withInputs rest).finish [] .emptyGarbled (.bytes [])) ∨
    (∃ rest, s.inputs = .reset :: rest ∧ t = (s.withInputs rest).resetBlock) ∨
    (∃ d v rest, s.inputs = .deviceChange d v :: rest ∧ t = (s.withInputs rest).writeView d v) := by
  unfold step at h
  split at h
  · rename_i hin
    cases h
    exact .inl ⟨hin, rfl⟩
  · rename_i w rest hin
    split at h
    · exact .inr (.inl ⟨w, rest, _, hin, by assumption, h⟩)
    · unfold rejectWord at h
      split at h
      · cases h
        exact .inr (.inr (.inl ⟨w, rest, _, hin, by assumption, rfl⟩))
      · cases h
  · rename_i rest hin
    cases h
    exact .inr (.inr (.inr (.inl ⟨rest, hin, rfl⟩)))
  · rename_i d v rest hin
    cases h
    exact .inr (.inr (.inr (.inr ⟨d, v, rest, hin, rfl⟩)))

end Sys2Proof.Machine
end

