-- ==== Sys2Proof/Laws/PerInstr.lean ====
section
/-! SUPPORT. Family EncodedCode: the word of each operation carries the value that
spec/opcode_table.json gives its row, as op code or as start delimiter. -/

namespace Sys2Proof.Laws

open Sys2Proof.Machine

/-- The code a word carries: the op code of a request (R58), or the first byte of a frame that is no
preamble (R46, R71). -/
def wordCode : PortWord → Option Nat
  | .request op _ => some op.toNat
  | .frame raw _ => (raw.drop (countPreambles raw)).head?.map BitVec.toNat

/-- The value of the row in spec/opcode_table.json. -/
def rowCode : Instr → Nat
  | .csum _ => 0x1
  | .preamble _ => 0x2
  | .saddr _ => 0x3
  | .laddr _ => 0x4
  | .encode _ _ _ _ _ => 0x5
  | .decode _ => 0x6
  | .decodeRsp _ => 0x7
  | .cfgw _ _ => 0x8
  | .cfgr => 0x9
  | .build _ _ _ => 0xA
  | .register _ _ => 0xB
  | .move _ _ => 0xC
  | .scan => 0xD
  | .transact _ _ => 0xE
  | .reserved0 => 0x0
  | .reservedF => 0xF
  | .frameShortReq _ _ => 0x02
  | .frameShortRsp _ _ => 0x06
  | .frameLongReq _ _ => 0x82
  | .frameLongRsp _ _ => 0x86

/-- A frame word carries its start delimiter, whatever its preambles. -/
theorem wordCode_frame {st : Byte} (h : st ≠ 0xFF#8) (f : WireFrame) (hint : Option Int) :
    wordCode (.frame (f.bytes st) hint) = some st.toNat := by
  have hb : f.bytes st = List.replicate f.preambles 0xFF#8 ++ st ::
      (f.address ++ f.command :: lengthByte f.data :: f.data ++ [f.checksum] ++ f.trailing) := by
    simp [WireFrame.bytes, layoutFrame, frameBody, preambleBytes, Config.preambleByte]
  simp only [wordCode]
  rw [hb, drop_countPreambles h]
  rfl

/-- The word of the operation carries the code of its row. -/
def EncodedCode.Statement (i : Instr) : Prop :=
  wordCode (encode i) = some (rowCode i)

theorem EncodedCode.csum (b : Bytes) : EncodedCode.Statement (.csum b) := rfl
theorem EncodedCode.preamble (n : Nat) : EncodedCode.Statement (.preamble n) := rfl
theorem EncodedCode.saddr (n : Int) : EncodedCode.Statement (.saddr n) := rfl
theorem EncodedCode.laddr (u : Bytes) : EncodedCode.Statement (.laddr u) := rfl
theorem EncodedCode.encode (p : Nat) (st : Int) (a : Bytes) (c : Int) (d : Bytes) :
    EncodedCode.Statement (.encode p st a c d) := rfl
theorem EncodedCode.decode (raw : Bytes) : EncodedCode.Statement (.decode raw) := rfl
theorem EncodedCode.decodeRsp (raw : Bytes) : EncodedCode.Statement (.decodeRsp raw) := rfl
theorem EncodedCode.cfgw (f : BitVec 1) (n : Int) : EncodedCode.Statement (.cfgw f n) := rfl
theorem EncodedCode.cfgr : EncodedCode.Statement .cfgr := rfl
theorem EncodedCode.build (a c : Int) (d : Bytes) : EncodedCode.Statement (.build a c d) := rfl
theorem EncodedCode.register (a : Int) (d : DevId) : EncodedCode.Statement (.register a d) := rfl
theorem EncodedCode.move (o n : Int) : EncodedCode.Statement (.move o n) := rfl
theorem EncodedCode.scan : EncodedCode.Statement .scan := rfl
theorem EncodedCode.transact (f : Bytes) (h : Option Int) : EncodedCode.Statement (.transact f h) := rfl
theorem EncodedCode.reserved0 : EncodedCode.Statement .reserved0 := rfl
theorem EncodedCode.reservedF : EncodedCode.Statement .reservedF := rfl
theorem EncodedCode.frameShortReq (f : WireFrame) (h : Option Int) : EncodedCode.Statement (.frameShortReq f h) :=
  wordCode_frame (by decide) f h
theorem EncodedCode.frameShortRsp (f : WireFrame) (h : Option Int) : EncodedCode.Statement (.frameShortRsp f h) :=
  wordCode_frame (by decide) f h
theorem EncodedCode.frameLongReq (f : WireFrame) (h : Option Int) : EncodedCode.Statement (.frameLongReq f h) :=
  wordCode_frame (by decide) f h
theorem EncodedCode.frameLongRsp (f : WireFrame) (h : Option Int) : EncodedCode.Statement (.frameLongRsp f h) :=
  wordCode_frame (by decide) f h

end Sys2Proof.Laws
end

