-- ==== Sys2Proof/Machine/Assembler.lean ====
section
/-! DEFINITION. The assembler notation of an operation (R62, decision D34): one line,
`MNEMONIC operand, operand`; byte sequences in brackets as hexadecimal pairs separated by spaces,
integers in decimal, an absent hint omitted, device handles as names. The source's collaborator calls
are the operations they map onto. No step uses this file (log entry 23). -/

namespace Sys2Proof.Machine

/-- One hexadecimal digit. -/
def hexDigit (n : Nat) : Char :=
  if n < 10 then Char.ofNat (48 + n) else Char.ofNat (55 + n)

/-- A byte as a hexadecimal pair. -/
def hexPair (b : Byte) : String :=
  String.ofList [hexDigit (b.toNat / 16), hexDigit (b.toNat % 16)]

/-- Texts with a separator between them. -/
def joined (sep : String) : List String → String
  | [] => ""
  | [t] => t
  | t :: rest => t ++ sep ++ joined sep rest

/-- A byte sequence: `[02 83 06]`, and `[]` when empty. -/
def showBytes (s : Bytes) : String :=
  "[" ++ joined " " (s.map hexPair) ++ "]"

/-- A device handle as a name. -/
def showDevice (d : DevId) : String :=
  "dev" ++ toString d.handle

/-- TRANSACT's operands; an absent hint is omitted. -/
def showTransact (frame : Bytes) (hint : Option Int) : String :=
  match hint with
  | none => "TRANSACT " ++ showBytes frame
  | some h => "TRANSACT " ++ joined ", " [showBytes frame, toString h]

/-- The line of an operation. A wire frame is written as the TRANSACT that routes it; the reserved ops have
no mnemonic. -/
def assembly : Instr → String
  | .csum s => "CSUM " ++ showBytes s
  | .preamble n => "PREAMBLE " ++ toString n
  | .saddr n => "SADDR " ++ toString n
  | .laddr u => "LADDR " ++ showBytes u
  | .encode p st a c d =>
    "ENCODE " ++ joined ", " [toString p, toString st, showBytes a, toString c, showBytes d]
  | .decode raw => "DECODE " ++ showBytes raw
  | .decodeRsp raw => "DECODE_RSP " ++ showBytes raw
  | .cfgw fmt n => "CFGW " ++ joined ", " [toString fmt.toNat, toString n]
  | .cfgr => "CFGR"
  | .build a c d => "BUILD " ++ joined ", " [toString a, toString c, showBytes d]
  | .register a d => "REGISTER " ++ joined ", " [toString a, showDevice d]
  | .move o n => "MOVE " ++ joined ", " [toString o, toString n]
  | .scan => "SCAN"
  | .transact f h => showTransact f h
  | .reserved0 => "op 0x0"
  | .reservedF => "op 0xF"
  | .frameShortReq f h => showTransact (f.bytes 0x02#8) h
  | .frameShortRsp f h => showTransact (f.bytes 0x06#8) h
  | .frameLongReq f h => showTransact (f.bytes 0x82#8) h
  | .frameLongRsp f h => showTransact (f.bytes 0x86#8) h

/-- `build_request(a, c, d)` (R62). -/
def buildRequest (a c : Int) (d : Bytes) : Instr := .build a c d

/-- `transact(f[, h])` (R62). -/
def transactRequest (f : Bytes) (h : Option Int) : Instr := .transact f h

/-- `parse_response(f)` (R62). -/
def parseResponse (f : Bytes) : Instr := .decodeRsp f

/-- `scan()` (R62). -/
def scanRequest : Instr := .scan

end Sys2Proof.Machine
end

