-- ==== Sys2Proof/Tests/Slice0.lean ====
section
/-! SUPPORT. Small tests, each one step or one decode, with expected results from spec/95_test_vectors.md
(section in the comment) or written out from the rules; the smoke test of the well-formedness checks; and
a witness for the hypotheses of each claim. -/

namespace Sys2Proof.Tests

open Sys2Proof Sys2Proof.Machine

/-! ### Helpers -/

/-- The response an outcome leaves on the port. -/
def responseOf : Host.Outcome State Fault Refusal → Option Response
  | .next s => s.response
  | .fault _ => none
  | .refused _ => none

/-- One fact about the next state. -/
def holdsAfter (o : Host.Outcome State Fault Refusal) (p : State → Bool) : Bool :=
  match o with
  | .next s => p s
  | .fault _ => false
  | .refused _ => false

def devA : DevId := ⟨1⟩
def devB : DevId := ⟨2⟩

/-- The devices of 95_test_vectors.md. -/
def viewA : DeviceView := ⟨3, #v[0x26#8, 0x0A#8, 0x12#8, 0x34#8, 0x56#8], "", "", "", true⟩
def viewB : DeviceView := ⟨6, #v[0x26#8, 0x0B#8, 0x00#8, 0x00#8, 0x2A#8], "", "", "", true⟩

/-- The reference responder's reply (R102): start OR 0x04, address and command echoed, two status bytes and
a payload; `q` is the reply's own preamble count. -/
def referenceReply (q : Nat) (start : Byte) (address : Bytes) (command s1 s2 : Byte) (payload : Bytes) : Bytes :=
  encodeFrame q (start ||| 0x04#8) address command (s1 :: s2 :: payload)

/-- `REG[3] = devA`, `REG[6] = devB`. -/
def fleet : State :=
  { State.reset with
    reg := (State.reset.reg.set 3 (some devA)).set 6 (some devB)
    devices := [(devA, viewA), (devB, viewB)] }

/-- The fleet with one reply to come. -/
def fleetReply (reply : Bytes) (v : DeviceView) : State :=
  { fleet with handleResults := [.returns ⟨reply, v⟩] }

/-- The fleet with a device whose `summary` call never returns in devB's place. -/
def fleetHanging : State :=
  { fleet with
    params := { Config.specParams with longRoute := .directory }
    devices := [(devA, viewA), (devB, { viewB with summaryReturns := false })] }

/-- The fleet after a SCAN, with a given CFG. -/
def scanned (cfg : BitVec 8) : State :=
  { fleet with cfg := cfg, scanCache := fleet.scanList }

/-- The fleet under directory routing. -/
def fleetDirectory (reply : Bytes) : State :=
  { fleetReply reply viewB with params := { Config.specParams with longRoute := .directory } }

/-- The fault an outcome stops with. -/
def faultOf : Host.Outcome State Fault Refusal → Option Fault
  | .next _ => none
  | .fault f => some f
  | .refused _ => none

/-- A reset machine with inputs to come. -/
def pending (l : List Input) : State :=
  { State.reset with inputs := l }

/-- `02 83 63 00 E2`, and the long frame to devB's id, as parsed. -/
def shortRequest : ParsedFrame := ⟨0, 0x02#8, [0x83#8], 0x63#8, 0x00#8, [], 0xE2#8, true⟩
def shortRaw : Bytes := [0x02#8, 0x83#8, 0x63#8, 0x00#8, 0xE2#8]
def longRequest : ParsedFrame :=
  ⟨0, 0x82#8, [0xA6#8, 0x0B#8, 0x00#8, 0x00#8, 0x2A#8], 0x10#8, 0x00#8, [], 0x15#8, true⟩
def longRaw : Bytes := [0x82#8, 0xA6#8, 0x0B#8, 0x00#8, 0x00#8, 0x2A#8, 0x10#8, 0x00#8, 0x15#8]

/-- The same frames with other forced and ignored bits: the short address byte 0x73, and the long address
with its master flag 0. -/
def shortRequestOtherBits : ParsedFrame := { shortRequest with address := [0x73#8], rxChecksum := 0x12#8 }
def shortRawOtherBits : Bytes := [0x02#8, 0x73#8, 0x63#8, 0x00#8, 0x12#8]
def longRequestNoFlag : ParsedFrame :=
  { longRequest with address := [0x26#8, 0x0B#8, 0x00#8, 0x00#8, 0x2A#8], rxChecksum := 0x95#8 }
def longRawNoFlag : Bytes := [0x82#8, 0x26#8, 0x0B#8, 0x00#8, 0x00#8, 0x2A#8, 0x10#8, 0x00#8, 0x95#8]

/-! ### Decoding: words written out from the encodings (R44, R45, R58) -/

theorem test_table_ops :
    (List.range 16).map (decodeTableWord 8) =
      [some .reserved0, some (.csum []), some (.preamble 0), some (.saddr 0), some (.laddr []),
        some (.encode 0 0 [] 0 []), some (.decode []), some (.decodeRsp []), some (.cfgw 0#1 0), some .cfgr,
        some (.build 0 0 []), some (.register 0 ⟨0⟩), some (.move 0 0), some .scan, some (.transact [] none),
        some .reservedF] := by decide

theorem test_table_long_frames :
    decodeTableWord 8 0x82 = some (.frameLongReq ⟨0, [0#8, 0#8, 0#8, 0#8, 0#8], 0#8, [], 0#8, []⟩ none) ∧
    decodeTableWord 8 0x86 = some (.frameLongRsp ⟨0, [0#8, 0#8, 0#8, 0#8, 0#8], 0#8, [], 0#8, []⟩ none) ∧
    decodeTableWord 8 0x81 = none := by decide

theorem test_decode_short_request :
    decode (.frame [0xFF#8, 0x02#8, 0x83#8, 0x06#8, 0x01#8, 0x05#8, 0x83#8] none) =
      .ok (.frameShortReq ⟨1, [0x83#8], 0x06#8, [0x05#8], 0x83#8, []⟩ none) := by rfl

theorem test_decode_short_response :
    decode (.frame [0x06#8, 0x83#8, 0x63#8, 0x02#8, 0x20#8, 0x00#8, 0xC4#8] none) =
      .ok (.frameShortRsp ⟨0, [0x83#8], 0x63#8, [0x20#8, 0x00#8], 0xC4#8, []⟩ none) := by rfl

theorem test_decode_wrong_operands :
    decode (.request 0x1#4 [.int 0]) = .error (.operands 0x1#4) := by rfl

/-! ### Well-formedness: each check refuses an ill-formed term -/

theorem smoke_short_address_width :
    (Instr.frameShortReq ⟨0, [0#8, 0#8], 0#8, [], 0#8, []⟩ none).wellFormed = false := by decide

theorem smoke_long_address_width :
    (Instr.frameLongRsp ⟨0, [0#8], 0#8, [], 0#8, []⟩ none).wellFormed = false := by decide

theorem smoke_data_length :
    (Instr.frameShortRsp ⟨0, [0#8], 0#8, List.replicate 256 0#8, 0#8, []⟩ none).wellFormed = false := by
  simp only [Instr.wellFormed, WireFrame.wellFormed, List.length_replicate]
  decide

theorem smoke_well_formed :
    (Instr.frameLongReq ⟨0, [0#8, 0#8, 0#8, 0#8, 0#8], 0#8, [], 0#8, []⟩ none).wellFormed = true := by decide

/-! ### Frame codec (95 sections 1.3, 1.4, 2.1 to 2.6) -/

theorem test_csum : responseOf (exec (.csum [0x02#8, 0x83#8, 0x06#8, 0x01#8, 0x05#8]) .reset) =
    some ⟨.ok, .byte 0x83#8⟩ := by decide

theorem test_csum_cancels : responseOf (exec (.csum [0xFF#8, 0xFF#8]) .reset) = some ⟨.ok, .byte 0#8⟩ := by decide

theorem test_preamble : responseOf (exec (.preamble 5) .reset) =
    some ⟨.ok, .bytes [0xFF#8, 0xFF#8, 0xFF#8, 0xFF#8, 0xFF#8]⟩ := by decide

theorem test_saddr_negative : responseOf (exec (.saddr (-1)) .reset) = some ⟨.ok, .bytes [0x8F#8]⟩ := by decide

theorem test_saddr_masks : responseOf (exec (.saddr 16) .reset) = some ⟨.ok, .bytes [0x80#8]⟩ := by decide

theorem test_laddr_first_five :
    responseOf (exec (.laddr [0x01#8, 0x02#8, 0x03#8, 0x04#8, 0x05#8, 0x06#8]) .reset) =
      some ⟨.ok, .longAddress [0x81#8, 0x02#8, 0x03#8, 0x04#8, 0x05#8] false⟩ := by decide

theorem test_laddr_placeholder : responseOf (exec (.laddr [0x01#8, 0x02#8, 0x03#8]) .reset) =
    some ⟨.ok, .longAddress [0x80#8, 0#8, 0#8, 0#8, 0#8] true⟩ := by decide

theorem test_encode : responseOf (exec (.encode 0 0x06 [0x80#8] 0x21 [0x01#8, 0x02#8]) .reset) =
    some ⟨.ok, .bytes [0x06#8, 0x80#8, 0x21#8, 0x02#8, 0x01#8, 0x02#8, 0xA6#8]⟩ := by decide

theorem test_encode_range : responseOf (exec (.encode 0 0x02 [0x86#8] 256 []) .reset) =
    some ⟨.argRange, .none⟩ := by decide

theorem test_decode_bad_checksum :
    responseOf (exec (.decode [0xFF#8, 0x02#8, 0x83#8, 0x06#8, 0x01#8, 0x05#8, 0x00#8]) .reset) =
      some ⟨.ok, .frame ⟨1, 0x02#8, [0x83#8], 0x06#8, 0x01#8, [0x05#8], 0x00#8, false⟩⟩ := by decide

theorem test_decode_missing_checksum :
    responseOf (exec (.decode [0x02#8, 0x83#8, 0x06#8, 0x01#8, 0x05#8]) .reset) = some ⟨.absent, .none⟩ := by
  decide

theorem test_decodeRsp_splits :
    responseOf (exec (.decodeRsp [0x06#8, 0x80#8, 0x21#8, 0x02#8, 0x01#8, 0x02#8, 0xA6#8]) .reset) =
      some ⟨.ok, .response ⟨⟨0, 0x06#8, [0x80#8], 0x21#8, 0x02#8, [0x01#8, 0x02#8], 0xA6#8, true⟩,
        some 0x01#8, some 0x02#8, some []⟩⟩ := by decide

theorem test_decodeRsp_short_data :
    responseOf (exec (.decodeRsp [0x02#8, 0x83#8, 0x06#8, 0x00#8, 0x87#8]) .reset) =
      some ⟨.ok, .response ⟨⟨0, 0x02#8, [0x83#8], 0x06#8, 0x00#8, [], 0x87#8, true⟩, none, none, none⟩⟩ := by
  decide

/-! ### Request builder (95 sections 2.7, 2.8) -/

theorem test_cfgw_clamps_high : holdsAfter (exec (.cfgw 1#1 9) .reset) (fun s => s.cfg == 0x71#8) = true := by
  decide

theorem test_cfgw_clamps_low : holdsAfter (exec (.cfgw 0#1 (-5)) .reset) (fun s => s.cfg == 0x30#8) = true := by
  decide

theorem test_cfgr_reset : responseOf (exec .cfgr .reset) = some ⟨.ok, .byte 0x50#8⟩ := by decide

theorem test_build_short : responseOf (exec (.build 19 6 [0x05#8]) .reset) =
    some ⟨.ok, .bytes [0xFF#8, 0xFF#8, 0xFF#8, 0xFF#8, 0xFF#8, 0x02#8, 0x83#8, 0x06#8, 0x01#8, 0x05#8, 0x83#8]⟩ := by
  decide

theorem test_build_long : responseOf (exec (.build 6 16 []) (scanned 0x51#8)) =
    some ⟨.ok, .bytes [0xFF#8, 0xFF#8, 0xFF#8, 0xFF#8, 0xFF#8, 0x82#8, 0xA6#8, 0x0B#8, 0x00#8, 0x00#8, 0x2A#8,
      0x10#8, 0x00#8, 0x15#8]⟩ := by decide

/-! ### Router (95 sections 2.9 to 2.12) -/

theorem test_register : holdsAfter (exec (.register 0x13 devA) .reset)
    (fun s => s.readReg 3 == some devA && s.activity.isEmpty) = true := by decide

theorem test_move : holdsAfter (exec (.move 0x23 0x15) fleet)
    (fun s => s.readReg 3 == none && s.readReg 5 == some devA && (s.view devA).pollingAddress == 5) = true := by
  decide

theorem test_move_empty : responseOf (exec (.move 9 2) fleet) = some ⟨.moveEmpty, .none⟩ := by decide

theorem test_scan : holdsAfter (exec .scan fleet)
    (fun s => (s.scanCache.map Summary.address == [3, 6]) &&
      s.activity == [.summary devA, .summary devB, .wait]) = true := by decide

theorem test_scan_one_device_at_two_keys :
    holdsAfter (exec .scan { fleet with reg := fleet.reg.set 9 (some devA) })
      (fun s => s.scanCache.map (fun e => (e.address, e.uniqueId)) ==
        [(3, viewA.uniqueId), (6, viewB.uniqueId), (9, viewA.uniqueId)]) = true := by decide

theorem test_transact_reply : responseOf (exec (.transact shortRaw none)
    (fleetReply (referenceReply 2 0x02#8 [0x83#8] 0x63#8 0x20#8 0x00#8 []) viewA)) =
      some ⟨.ok, .bytes [0x06#8, 0x83#8, 0x63#8, 0x02#8, 0x20#8, 0x00#8, 0xC4#8]⟩ := by decide

theorem test_transact_bad_reply : responseOf (exec (.transact shortRaw none) (fleetReply [] viewA)) =
    some ⟨.emptyDevice, .bytes []⟩ := by decide

/-- 95 section 1.5: devA answers command 6 and its own polling address becomes 5, but it stays at key 3. -/
theorem test_transact_command_six : holdsAfter
    (exec (.transact [0x02#8, 0x83#8, 0x06#8, 0x01#8, 0x05#8, 0x83#8] none)
      (fleetReply (referenceReply 2 0x02#8 [0x83#8] 0x06#8 0x00#8 0x00#8 [0x05#8]) { viewA with pollingAddress := 5 }))
    (fun s => s.response == some ⟨.ok, .bytes [0x06#8, 0x83#8, 0x06#8, 0x03#8, 0x00#8, 0x00#8, 0x05#8, 0x85#8]⟩ &&
      s.readReg 3 == some devA && s.readReg 5 == none && (s.view devA).pollingAddress == 5) = true := by decide

/-- 95 section 1.6: the status pair of an unsupported command. -/
theorem test_unsupported_command_pair : DeviceStatus.unsupportedCmd.pair = (0x20#8, 0x00#8) := rfl

theorem test_reserved0 : responseOf (exec .reserved0 .reset) = some ⟨.illegalOp, .none⟩ := by decide

theorem test_reservedF : responseOf (step (State.reset.withFetchWord 8 0xF)) = some ⟨.illegalOp, .none⟩ := by
  decide

theorem test_frame_short_request_miss :
    holdsAfter (exec (.frameShortReq ⟨3, [0x89#8], 0x01#8, [], 0x8A#8, []⟩ none) fleet)
      (fun s => s.response == some ⟨.emptyMiss, .bytes []⟩ && s.activity == [.wait]) = true := by decide

theorem test_frame_short_response_routes :
    holdsAfter (exec (.frameShortRsp ⟨0, [0xF3#8], 0x63#8, [], 0x00#8, []⟩ none)
      (fleetReply (referenceReply 0 0x06#8 [0xF3#8] 0x63#8 0x20#8 0x00#8 []) viewA))
      (fun s => s.response == some ⟨.ok, .bytes [0x06#8, 0xF3#8, 0x63#8, 0x02#8, 0x20#8, 0x00#8, 0xB4#8]⟩ &&
        s.activity == [.handle devA ⟨0, 0x06#8, [0xF3#8], 0x63#8, 0x00#8, []⟩, .wait]) = true := by decide

theorem test_frame_long_request_hint :
    responseOf (exec (.frameLongReq ⟨0, longRequest.address, 0x10#8, [], 0x15#8, []⟩ (some 0x16))
      (fleetReply (referenceReply 0 0x82#8 longRequest.address 0x10#8 0#8 0#8 [0x00#8, 0x00#8, 0x2A#8]) viewB)) =
      some ⟨.ok, .bytes [0x86#8, 0xA6#8, 0x0B#8, 0x00#8, 0x00#8, 0x2A#8, 0x10#8, 0x05#8, 0x00#8, 0x00#8, 0x00#8,
        0x00#8, 0x2A#8, 0x3E#8]⟩ := by decide

theorem test_frame_long_request_directory :
    holdsAfter (exec (.frameLongReq ⟨0, 0x26#8 :: longRequest.address.drop 1, 0x10#8, [], 0x95#8, []⟩ (some 3))
      (fleetDirectory (referenceReply 0 0x82#8 (0x26#8 :: longRequest.address.drop 1) 0x10#8 0#8 0#8
        [0x00#8, 0x00#8, 0x2A#8])))
      (fun s => s.activity.take 2 == [.summary devA, .summary devB] &&
        s.response == some ⟨.ok, .bytes [0x86#8, 0x26#8, 0x0B#8, 0x00#8, 0x00#8, 0x2A#8, 0x10#8, 0x05#8, 0x00#8,
          0x00#8, 0x00#8, 0x00#8, 0x2A#8, 0xBE#8]⟩) = true := by decide

theorem test_frame_long_response_no_hint :
    responseOf (exec (.frameLongRsp ⟨0, longRequest.address, 0x10#8, [], 0x11#8, []⟩ none) fleet) =
      some ⟨.emptyNoRoute, .bytes []⟩ := by decide

/-- U6: a device call that never returns leaves the block stuck. -/
theorem test_stuck_in_handle :
    faultOf (exec (.transact shortRaw none) { fleet with handleResults := [.never] }) =
      some (.handleNeverReturns devA) := by decide

theorem test_stuck_in_summary :
    faultOf (exec .scan fleetHanging) = some (.summaryNeverReturns devB) ∧
      faultOf (exec (.transact longRaw none) fleetHanging) = some (.summaryNeverReturns devB) := by decide

/-- A directory lookup that matches devA asks no device after it (R88), so the hanging devB is no matter. -/
theorem test_directory_stops_at_the_match :
    holdsAfter (exec (.transact [0x82#8, 0xA6#8, 0x0A#8, 0x12#8, 0x34#8, 0x56#8, 0x00#8, 0x00#8, 0x5E#8] none)
        { fleetHanging with handleResults := [.returns ⟨[], viewA⟩] })
      (fun s => s.activity.head? == some (.summary devA) && s.activity.length == 3) = true := by decide

theorem test_reset_input : holdsAfter (step { scanned 0x71#8 with inputs := [.reset] })
    (fun s => s.cfg == 0x50#8 && s.scanCache.isEmpty && s.readReg 3 == none && s.view devA == viewA) = true := by
  decide

theorem test_assembly : assembly (.transact [0xFF#8, 0x82#8, 0xA6#8] (some 3)) = "TRANSACT [FF 82 A6], 3" := by
  decide

/-! ### Witnesses: concrete states and operands that meet the hypotheses of the claims -/

theorem shortFrame : FrameAt shortRaw shortRequest [] := parseFrameRest_eq_ok.mp (by rfl)

theorem longFrame : FrameAt longRaw longRequest [] := parseFrameRest_eq_ok.mp (by rfl)

theorem shortFrameOtherBits : FrameAt shortRawOtherBits shortRequestOtherBits [] := parseFrameRest_eq_ok.mp (by rfl)

theorem longFrameNoFlag : FrameAt longRawNoFlag longRequestNoFlag [] := parseFrameRest_eq_ok.mp (by rfl)

/-- A reply with two status bytes: `06 83 63 02 20 00 C4`. -/
def replyRaw : Bytes := [0x06#8, 0x83#8, 0x63#8, 0x02#8, 0x20#8, 0x00#8, 0xC4#8]
def replyFrame : ParsedFrame := ⟨0, 0x06#8, [0x83#8], 0x63#8, 0x02#8, [0x20#8, 0x00#8], 0xC4#8, true⟩

theorem replyIsFrame : FrameAt replyRaw replyFrame [] := parseFrameRest_eq_ok.mp (by rfl)

theorem emptyIsNoFrame : ¬ ∃ f t, FrameAt [] f t := parseFrame_error (e := .noStartByte) (by rfl)

theorem shortResolves (s : State) (hint : Option Int) : Resolves s shortRequest hint 3 :=
  .inl ⟨0x83#8, rfl, rfl⟩

theorem longResolves : Resolves fleet longRequest (some 0x16) 6 :=
  .inr (.inl ⟨rfl, rfl, 0x16, rfl, rfl⟩)

theorem directoryResolves (reply : Bytes) : Resolves (fleetDirectory reply) longRequest none 6 :=
  (resolveKey_eq_some (by decide)).mp (by rfl)

theorem witness_DecodeOfEncodeIsTheOperation :
    (Instr.frameLongReq ⟨300, [0x80#8, 0#8, 0#8, 0#8, 0#8], 0xFF#8, [0xFF#8], 0#8, [0xFF#8]⟩ (some (-1))).wellFormed =
      true := by decide

theorem witness_EncodeOfDecodeIsTheWord :
    decode (.request 0x9#4 []) = .ok .cfgr ∧ Instr.cfgr ≠ .reserved0 ∧ Instr.cfgr ≠ .reservedF := by decide

/-- The result of command 6 above conforms (R103). -/
theorem witness_ConformsOnCommandSix :
    HandleResult.ConformsOnCommandSix ⟨0, 0x02#8, [0x83#8], 0x06#8, 0x01#8, [0x05#8]⟩
      ⟨referenceReply 2 0x02#8 [0x83#8] 0x06#8 0x00#8 0x00#8 [0x05#8], { viewA with pollingAddress := 5 }⟩ := by
  rintro a - h
  cases h
  exact ⟨⟨_, _, 0x00#8, 0x00#8, parseFrameRest_eq_ok.mp (by rfl), rfl⟩, rfl⟩

theorem witness_StepRunsTheDecodedOperation :
    (pending [.word (.request 0x9#4 [])]).inputs = .word (.request 0x9#4 []) :: [] ∧
      decode (.request 0x9#4 []) = .ok .cfgr := by decide

theorem witness_StepWithoutAnOperation_idle : State.reset.inputs = [] := rfl

theorem witness_StepWithoutAnOperation_garbled :
    (pending [.word (.frame [] none)]).inputs = .word (.frame [] none) :: [] ∧ ¬ ∃ f t, FrameAt [] f t :=
  ⟨rfl, emptyIsNoFrame⟩

theorem witness_StepWithoutAnOperation_refused :
    (pending [.word (.request 0x1#4 [])]).inputs = .word (.request 0x1#4 []) :: [] ∧
      ¬ ∃ i, decode (.request 0x1#4 []) = .ok i :=
  ⟨rfl, by rintro ⟨i, h⟩; cases h⟩

theorem witness_StepWithoutAnOperation_device :
    (pending [.deviceChange devA viewB]).inputs = .deviceChange devA viewB :: [] := rfl

theorem witness_StepTakesTheOldestInput : step State.reset = .next State.reset := rfl

theorem witness_ChecksumEngineFoldsXor :
    [0x01#8, 0xFF#8].Perm [0xFF#8, 0x01#8] ∧ ∀ x : Byte, [0xFF#8, 0xFF#8].count x % 2 = 0 :=
  ⟨List.Perm.swap _ _ _, by decide⟩

theorem witness_LongAddressForcesTheMasterFlag : ([] : Bytes).length < 5 ∧ [0#8, 0#8, 0#8, 0#8].length < 5 := by
  decide

theorem witness_EncodeLaysOutTheFrame :
    ([] : Bytes).length ≤ 255 ∧ (256 : Int) > 255 ∧ (-1 : Int) < 0 := by decide

theorem witness_EncodedFramesXorToZero :
    exec (.encode 0 0x02 [0x83#8] 6 []) .reset =
      .next { State.reset with response := some ⟨.ok, .bytes [0x02#8, 0x83#8, 0x06#8, 0x00#8, 0x87#8]⟩ } := by rfl

theorem witness_DecodeAcceptsExactlyTheFrames : FrameAt shortRaw shortRequest [] ∧ ¬ ∃ f t, FrameAt [] f t :=
  ⟨shortFrame, emptyIsNoFrame⟩

theorem witness_DelimiterAndLengthDecideDecode_start :
    (0x03#8 ≠ 0xFF#8 ∧ ¬ ∃ w, hasWidth 0x03#8 w) ∧ (0x82#8 ≠ 0xFF#8 ∧ hasWidth 0x82#8 5) :=
  ⟨⟨by decide, by rintro ⟨w, h⟩; simp [hasWidth] at h⟩, by decide⟩

theorem witness_DelimiterAndLengthDecideDecode_length :
    [0#8, 0#8, 0#8, 0#8, 0#8, 0#8].length < 5 + 2 ∧
      [0x83#8, 0x06#8, 0x01#8, 0x05#8].drop 1 = 0x06#8 :: 0x01#8 :: [0x05#8] ∧ [0x05#8].length < (0x01#8).toNat + 1 ∧
      [0x83#8, 0x06#8, 0x00#8, 0x87#8].drop 1 = 0x06#8 :: 0x00#8 :: [0x87#8] ∧ (0x00#8).toNat + 1 ≤ [0x87#8].length := by
  decide

theorem witness_DecodeResponseSplitsTheData :
    replyFrame.data = 0x20#8 :: 0x00#8 :: [] ∧ shortRequest.data.length < 2 := by decide

theorem witness_EncodeThenDecodeReturnsEveryField :
    hasWidth 0x86#8 [0x80#8, 0#8, 0#8, 0#8, 0#8].length ∧ ([] : Bytes).length ≤ 255 := by decide

theorem witness_CodecOperationsDependOnNoState : (Instr.decode []).isCodec = true := rfl

theorem witness_ConfigReadGivesBothFields : cfgLegal 0x30#8 ∧ cfgLegal 0x71#8 := by decide

theorem witness_BuildInShortMode : ([] : Bytes).length ≤ 255 ∧ cfgFmt State.reset.cfg = 0#1 := by decide

theorem witness_BuildInLongMode :
    cfgFmt (scanned 0x51#8).cfg = 1#1 ∧ ascending (scanned 0x51#8).scanCache ∧
      ∃ e ∈ (scanned 0x51#8).scanCache, (e.address.val : Int) = 0x13 % 16 := by decide

theorem witness_BuildWithoutAScannedDevice :
    cfgFmt (scanned 0x51#8).cfg = 1#1 ∧ (∀ e ∈ (scanned 0x51#8).scanCache, (e.address.val : Int) ≠ 9 % 16) ∧
      (scanned 0x51#8).params.buildFallbackShort = false := by decide

theorem witness_BuildWithoutAScannedDevice_fallback :
    { scanned 0x51#8 with params := { Config.specParams with buildFallbackShort := true } }.params.buildFallbackShort =
      true := rfl

theorem witness_BuildChecksRangesFirst : (255 : Int) < 256 := by decide

theorem witness_BuiltFramesDecodeBack :
    cfgLegal State.reset.cfg ∧
      responseOf (exec (.build 3 6 []) .reset) = some ⟨.ok, .bytes [0xFF#8, 0xFF#8, 0xFF#8, 0xFF#8, 0xFF#8, 0x02#8,
        0x83#8, 0x06#8, 0x00#8, 0x87#8]⟩ := by decide

/-- Long mode: a scanned key gives the long frame, and with the fallback another key the short one. -/
theorem witness_BuiltFramesDecodeBack_long :
    cfgLegal (scanned 0x31#8).cfg ∧
      responseOf (exec (.build 6 0x10 []) (scanned 0x31#8)) =
        some ⟨.ok, .bytes ([0xFF#8, 0xFF#8, 0xFF#8] ++ longRaw)⟩ ∧
      responseOf (exec (.build 9 6 []) { scanned 0x31#8 with
          params := { Config.specParams with buildFallbackShort := true } }) =
        some ⟨.ok, .bytes [0xFF#8, 0xFF#8, 0xFF#8, 0x02#8, 0x89#8, 0x06#8, 0x00#8, 0x8D#8]⟩ := by decide

theorem witness_MoveRekeysTheDevice :
    ((3 : Key).val : Int) = 0x23 % 16 ∧ ((3 : Key).val : Int) = 3 % 16 ∧ fleet.readReg 3 = some devA := by decide

theorem witness_MoveFromAnEmptyKey : ((9 : Key).val : Int) = 9 % 16 ∧ fleet.readReg 9 = none := by decide

theorem witness_UnroutedFramesGetNoRoute :
    (Instr.transact longRaw none).busFrame = some (longRaw, none) ∧ FrameAt longRaw longRequest [] ∧
      AskedReturn fleet longRequest ∧ ∀ k, ¬ Resolves fleet longRequest none k :=
  ⟨rfl, longFrame, (hungSummary_askedDevices_eq_none longFrame.width).mp (by rfl),
    (resolveKey_eq_none longFrame.width).mp (by rfl)⟩

theorem witness_UnroutedFramesGetNoRoute_directory :
    AskedReturn { fleetDirectory [] with reg := fleet.reg.set 6 none } longRequest ∧
      ∀ k, ¬ Resolves { fleetDirectory [] with reg := fleet.reg.set 6 none } longRequest (some 3) k :=
  ⟨(hungSummary_askedDevices_eq_none longFrame.width).mp (by rfl),
    (resolveKey_eq_none longFrame.width).mp (by rfl)⟩

theorem witness_FramesToAnEmptySlotMiss :
    (Instr.frameShortReq ⟨0, [0x83#8], 0x63#8, [], 0xE2#8, []⟩ none).busFrame = some (shortRaw, none) ∧
      Resolves State.reset shortRequest none 3 ∧ State.reset.readReg 3 = none :=
  ⟨rfl, shortResolves _ _, by decide⟩

theorem witness_FramesToAnEmptySlotMiss_long :
    (Instr.transact longRaw (some 3)).busFrame = some (longRaw, some 3) ∧ FrameAt longRaw longRequest [] ∧
      Resolves State.reset longRequest (some 3) 3 ∧ State.reset.readReg 3 = none :=
  ⟨rfl, longFrame, (resolveKey_eq_some longFrame.width).mp (by rfl), by decide⟩

theorem witness_RoutedFramesReachOneDevice :
    AskedReturn (fleetReply replyRaw viewA) shortRequest ∧
      Resolves (fleetReply replyRaw viewA) shortRequest none 3 ∧
      (fleetReply replyRaw viewA).readReg 3 = some devA ∧
      (fleetReply replyRaw viewA).nextHandle = .returns ⟨replyRaw, viewA⟩ ∧ FrameAt replyRaw replyFrame [] :=
  ⟨(hungSummary_askedDevices_eq_none shortFrame.width).mp (by rfl), shortResolves _ _, by decide, rfl, replyIsFrame⟩

theorem witness_RoutedFramesReachOneDevice_badReply :
    (fleetReply [] viewA).nextHandle = .returns ⟨[], viewA⟩ ∧ ¬ ∃ r t, FrameAt [] r t :=
  ⟨rfl, emptyIsNoFrame⟩

theorem witness_RoutedFramesReachOneDevice_long :
    (Instr.frameLongReq ⟨0, longRequest.address, 0x10#8, [], 0x15#8, []⟩ (some 0x16)).busFrame =
        some (longRaw, some 0x16) ∧ FrameAt longRaw longRequest [] ∧ Resolves fleet longRequest (some 0x16) 6 ∧
      fleet.readReg 6 = some devB :=
  ⟨rfl, longFrame, longResolves, by decide⟩

/-- A directory lookup of devB asks devA and devB, then calls devB (R88). -/
theorem witness_RoutedFramesReachOneDevice_directory :
    FrameAt longRaw longRequest [] ∧ AskedReturn (fleetDirectory replyRaw) longRequest ∧
      Resolves (fleetDirectory replyRaw) longRequest none 6 ∧ (fleetDirectory replyRaw).readReg 6 = some devB ∧
      (fleetDirectory replyRaw).nextHandle = .returns ⟨replyRaw, viewB⟩ ∧
      resolutionCalls (fleetDirectory replyRaw) longRequest (some 6) = [.summary devA, .summary devB] :=
  ⟨longFrame, (hungSummary_askedDevices_eq_none longFrame.width).mp (by rfl), directoryResolves _, by decide, rfl,
    by decide⟩

theorem witness_HandleResultsAreTakenInOrder :
    (fleetReply replyRaw viewA).handleResults = .returns ⟨replyRaw, viewA⟩ :: [] ∧ State.reset.handleResults = [] :=
  ⟨rfl, rfl⟩

theorem witness_HintRoutingIgnoresTheAddress :
    FrameAt longRaw longRequest [] ∧ FrameAt longRawNoFlag longRequestNoFlag [] ∧
      longRequest.address ≠ longRequestNoFlag.address ∧ longRequest.address.length = 5 ∧
      longRequestNoFlag.address.length = 5 ∧ fleet.params.longRoute = .hint :=
  ⟨longFrame, longFrameNoFlag, by decide, rfl, rfl, rfl⟩

theorem witness_HintIsIgnoredWhereAnotherKeyDecides :
    (fleetDirectory []).params.longRoute = .directory ∧ FrameAt shortRaw shortRequest [] ∧
      shortRequest.address.length = 1 :=
  ⟨rfl, shortFrame, rfl⟩

theorem witness_DirectoryAsksUpToTheFirstMatch :
    FrameAt longRaw longRequest [] ∧ Resolves (fleetDirectory replyRaw) longRequest none 6 ∧
      holdsAfter (exec (.transact longRaw none) (fleetDirectory replyRaw)) (fun _ => true) = true :=
  ⟨longFrame, directoryResolves _, by rfl⟩

theorem witness_TransactIgnoresTheChecksum : hasWidth 0x02#8 [0x83#8].length ∧ ([] : Bytes).length ≤ 255 := by
  decide

theorem witness_TrailingBytesAreIgnored : ∃ f t, FrameAt shortRaw f t := ⟨_, _, shortFrame⟩

theorem witness_ResponsesKeepTheRequestFraming :
    responseOf (exec (.transact shortRaw none) (fleetReply replyRaw viewA)) = some ⟨.ok, .bytes replyRaw⟩ := by
  decide

theorem witness_ConformingRepliesComeBackWhole :
    FrameAt shortRaw shortRequest [] ∧ AskedReturn (fleetReply replyRaw viewA) shortRequest ∧
      Resolves (fleetReply replyRaw viewA) shortRequest none 3 ∧
      (fleetReply replyRaw viewA).readReg 3 = some devA ∧
      (fleetReply replyRaw viewA).nextHandle = .returns ⟨replyRaw, viewA⟩ ∧ ConformingReply replyRaw :=
  ⟨shortFrame, (hungSummary_askedDevices_eq_none shortFrame.width).mp (by rfl), shortResolves _ _, by decide, rfl, _, _,
    replyIsFrame, by decide⟩

theorem witness_TransactionsDoNotRekey :
    (Instr.transact [] none).busFrame = some ([], none) ∧
      holdsAfter (exec (.transact [] none) fleet) (fun _ => true) = true ∧ FrameAt shortRaw shortRequest [] ∧
      fleet.params.longRoute = .hint ∧ shortRequest.address.length = 1 :=
  ⟨rfl, by rfl, shortFrame, rfl, rfl⟩

/-- Clauses 1 and 3. -/
theorem witness_ReservedAndForcedBitsOnTheWire :
    responseOf (exec (.saddr 3) .reset) = some ⟨.ok, .bytes [0x83#8]⟩ ∧
      responseOf (exec (.laddr []) .reset) = some ⟨.ok, .longAddress [0x80#8, 0#8, 0#8, 0#8, 0#8] true⟩ := by decide

/-- Clause 2. -/
theorem witness_ReservedAndForcedBitsOnTheWire_short :
    FrameAt shortRaw shortRequest [] ∧ FrameAt shortRawOtherBits shortRequestOtherBits [] ∧
      shortRequest.address = [0x83#8] ∧ shortRequestOtherBits.address = [0x73#8] ∧
      (0x83#8).extractLsb' 0 4 = (0x73#8).extractLsb' 0 4 :=
  ⟨shortFrame, shortFrameOtherBits, rfl, rfl, by decide⟩

/-- Clause 4, with a device that answers to both. -/
theorem witness_ReservedAndForcedBitsOnTheWire_directory :
    FrameAt longRaw longRequest [] ∧ FrameAt longRawNoFlag longRequestNoFlag [] ∧
      (fleetDirectory replyRaw).params.longRoute = .directory ∧
      longRequest.address = 0xA6#8 :: [0x0B#8, 0x00#8, 0x00#8, 0x2A#8] ∧
      longRequestNoFlag.address = (0xA6#8 ^^^ 0x80#8) :: [0x0B#8, 0x00#8, 0x00#8, 0x2A#8] ∧
      [0x0B#8, 0x00#8, 0x00#8, 0x2A#8].length = 4 ∧ Resolves (fleetDirectory replyRaw) longRequest none 6 :=
  ⟨longFrame, longFrameNoFlag, rfl, rfl, by decide, rfl, directoryResolves _⟩

/-- Clause 5: the values next to the four delimiters. -/
theorem witness_ReservedAndForcedBitsOnTheWire_start :
    ∀ st ∈ [0x00#8, 0x01#8, 0x03#8, 0x81#8, 0x87#8, 0xFE#8], st ≠ 0xFF#8 ∧ ¬ ∃ w, hasWidth st w := by
  simp [hasWidth]

/-- Clause 6, with the longest data. -/
theorem witness_ReservedAndForcedBitsOnTheWire_data :
    hasWidth 0x86#8 [0xFF#8, 0xFF#8, 0xFF#8, 0xFF#8, 0xFF#8].length ∧ (List.replicate 255 0xFF#8).length ≤ 255 :=
  ⟨by decide, by rw [List.length_replicate]⟩

theorem witness_ReservedOpsAreIllegal :
    (pending [.word (.request 0xF#4 [.nat 1])]).inputs = .word (.request 0xF#4 [.nat 1]) :: [] := rfl

/-- The hypotheses of completion, for SCAN and for a transaction. -/
theorem witness_OperationsCompleteUnlessADeviceHangs :
    DeviceCallsReturn .scan fleet ∧ DeviceCallsReturn (.transact shortRaw none) (fleetReply replyRaw viewA) := by
  refine ⟨⟨fun _ k d hk => ?_, by simp [Instr.busFrame]⟩, by simp, fun raw hint p t hb hf => ?_⟩
  · have h : ∀ k : Key, ∀ d ∈ fleet.readReg k, (fleet.view d).summaryReturns = true := by decide
    exact h k d hk
  · cases hb
    have hp := (frameAt_unique hf shortFrame).1
    subst hp
    exact ⟨(hungSummary_askedDevices_eq_none shortFrame.width).mp (by rfl), fun _ _ _ _ => ⟨_, rfl⟩⟩

/-- A stuck SCAN and a stuck transaction. -/
theorem witness_OperationsCompleteUnlessADeviceHangs_stuck :
    ¬ DeviceCallsReturn .scan fleetHanging ∧
      ¬ DeviceCallsReturn (.transact shortRaw none) { fleet with handleResults := [.never] } := by
  refine ⟨fun h => absurd (h.1 rfl 6 devB (by decide)) (by decide), fun h => ?_⟩
  obtain ⟨r, hr⟩ := (h.2 _ _ _ _ rfl shortFrame).2 3 devA (shortResolves _ _) (by decide)
  cases hr

/-- SCAN's hypothesis. -/
theorem witness_ScanListsTheRegistry : ∀ k : Key, ∀ d ∈ fleet.readReg k, (fleet.view d).summaryReturns = true := by
  decide

theorem witness_RegistryWritersAndReaders :
    holdsAfter (exec .cfgr fleet) (fun _ => true) = true ∧ (∀ a d, Instr.cfgr ≠ .register a d) ∧
      (∀ o n, Instr.cfgr ≠ .move o n) ∧ Instr.cfgr ≠ .scan ∧ Instr.cfgr.busFrame = none := by
  refine ⟨by rfl, ?_, ?_, ?_, rfl⟩ <;> intros <;> simp

theorem witness_ConfigAndCacheWriters :
    (∀ a c d, Instr.cfgr ≠ .build a c d) ∧ cfgFmt State.reset.cfg = 0#1 :=
  ⟨by intros; simp, by decide⟩

theorem witness_FailedOperationsWriteNothing :
    responseOf (exec (.move 9 2) fleet) = some ⟨.moveEmpty, .none⟩ ∧ Status.moveEmpty ≠ .ok := by decide

theorem witness_FailedOperationsReturnNoResult :
    responseOf (exec (.transact [] none) fleet) = some ⟨.emptyGarbled, .bytes []⟩ ∧
      (Instr.transact [] none).busFrame ≠ none ∧ (Instr.move 9 2).busFrame = none := by decide

theorem witness_StatusesOfTheOperations :
    responseOf (exec (.build 9 0 []) (scanned 0x51#8)) = some ⟨.resolveErr, .none⟩ ∧
      responseOf (exec (.build 9 256 []) (scanned 0x51#8)) = some ⟨.argRange, .none⟩ ∧
      responseOf (exec (.decode []) .reset) = some ⟨.absent, .none⟩ ∧
      responseOf (exec .reservedF .reset) = some ⟨.illegalOp, .none⟩ := by decide

theorem witness_DeviceCallsAndWaits :
    holdsAfter (exec (.transact shortRaw none) (fleetReply replyRaw viewA)) (fun s => s.activity.length == 2) = true := by
  decide

theorem witness_OperationsChangeOnlyCalledDevices :
    holdsAfter (exec (.move 3 5) fleet) (fun s => s.view devA != fleet.view devA) = true ∧
      holdsAfter (exec (.transact shortRaw none) (fleetReply replyRaw { viewA with pollingAddress := 5 }))
        (fun s => s.view devA != fleet.view devA) = true := by decide

theorem witness_BuildUsesTheCacheAsItStands :
    holdsAfter (exec (.register 9 devB) (scanned 0x51#8)) (fun t =>
      holdsAfter (exec (.build 9 0 []) (scanned 0x51#8)) (fun _ => true) &&
        holdsAfter (exec (.build 9 0 []) t) (fun v => v.response == some ⟨.resolveErr, .none⟩)) = true := by decide

theorem witness_FrameLengths : FrameAt shortRaw shortRequest [] ∧ FrameAt longRaw longRequest [] :=
  ⟨shortFrame, longFrame⟩

theorem witness_ResetInputRestoresTheBlock : (pending [.reset]).inputs = .reset :: [] := rfl

theorem witness_StepKeepsTheInvariant :
    (scanned 0x71#8).Inv ∧ step (scanned 0x71#8) = .next (scanned 0x71#8) :=
  ⟨⟨by decide, by decide, by decide, rfl, by decide⟩, rfl⟩

end Sys2Proof.Tests
end

section
/-! PROOFS. Who writes and who reads the registry (R24): the operations that make no access to `REG`, the
transactions, and a bus on which the registry is seen in the response. -/

namespace Sys2Proof.RegistryAccess

open Sys2Proof Sys2Proof.Machine

/-! ### Operations that neither read nor write the registry -/

/-- BUILD in range ends with one status and result, whatever the registry holds (R80 to R82). -/
theorem buildInRange_answer (a : Int) (cmd : Byte) (data : Bytes) (s : State) :
    ∃ st res, ∀ r, buildInRange a cmd data { s with reg := r } = complete [] st res { s with reg := r } := by
  have hcache : ∀ r k, State.cachedSummary { s with reg := r } k = s.cachedSummary k := fun _ _ => rfl
  have hshort : ∀ r, buildShort { s with reg := r } a cmd data = buildShort s a cmd data := fun _ => rfl
  have hlong : ∀ r e, buildLong { s with reg := r } e cmd data = buildLong s e cmd data := fun _ _ => rfl
  by_cases hf : cfgFmt s.cfg = 0#1
  · exact ⟨.ok, .bytes (buildShort s a cmd data), fun _ => if_pos hf⟩
  · cases he : s.cachedSummary (keyOf a) with
    | some e => exact ⟨.ok, .bytes (buildLong s e cmd data), fun _ => by simp [buildInRange, hf, hcache, he, hlong]⟩
    | none =>
      cases hb : s.params.buildFallbackShort with
      | true =>
        exact ⟨.ok, .bytes (buildShort s a cmd data), fun _ => by simp [buildInRange, hf, hcache, he, hb, hshort]⟩
      | false => exact ⟨.resolveErr, .none, fun _ => by simp [buildInRange, hf, hcache, he, hb]⟩

/-- BUILD ends with one status and result, whatever the registry holds (R80 to R82). -/
theorem build_answer (a c : Int) (data : Bytes) (s : State) :
    ∃ st res, ∀ r, exec (.build a c data) { s with reg := r } = complete [] st res { s with reg := r } := by
  cases hc : byteOperand c with
  | none => exact ⟨.argRange, .none, fun _ => by simp only [exec, execBuild, hc]⟩
  | some cmd =>
    cases hd : dataFits data with
    | false => exact ⟨.argRange, .none, fun _ => by simp only [exec, execBuild, hc, hd]⟩
    | true =>
      obtain ⟨st, res, h⟩ := buildInRange_answer a cmd data s
      exact ⟨st, res, fun r => by simpa only [exec, execBuild, hc, hd] using h r⟩

/-- An operation other than REGISTER, MOVE, SCAN and the transactions writes `CFG` at most, and writes it and
answers the same whatever the registry holds. -/
theorem exec_answer {i : Instr} (hreg : ∀ a d, i ≠ .register a d) (hmove : ∀ o n, i ≠ .move o n)
    (hscan : i ≠ .scan) (hbus : i.busFrame = none) (s : State) :
    ∃ c st res, ∀ r, exec i { s with reg := r } =
      .next ((State.writeCfg { s with reg := r } c).finish [] st res) := by
  cases i with
  | csum | preamble | saddr | laddr | reserved0 | reservedF => exact ⟨s.cfg, _, _, fun _ => rfl⟩
  | cfgw fmt n => exact ⟨cfgWith fmt (clampPreambles n) s.cfg, .ok, .none, fun _ => rfl⟩
  | cfgr => exact ⟨s.cfg, .ok, .byte (cfgRead s.cfg), fun _ => rfl⟩
  | encode =>
    simp only [exec, execEncode]
    split <;> exact ⟨s.cfg, _, _, fun _ => rfl⟩
  | decode =>
    simp only [exec, execDecode]
    split <;> exact ⟨s.cfg, _, _, fun _ => rfl⟩
  | decodeRsp =>
    simp only [exec, execDecodeRsp]
    split <;> exact ⟨s.cfg, _, _, fun _ => rfl⟩
  | build a c data =>
    obtain ⟨st, res, h⟩ := build_answer a c data s
    exact ⟨s.cfg, st, res, h⟩
  | register a d => exact absurd rfl (hreg a d)
  | move o n => exact absurd rfl (hmove o n)
  | scan => exact absurd rfl hscan
  | transact | frameShortReq | frameShortRsp | frameLongReq | frameLongRsp => cases hbus

/-- Only REGISTER and MOVE write the registry. -/
theorem exec_keeps_reg {i : Instr} {s t : State} (h : exec i s = .next t) (hreg : ∀ a d, i ≠ .register a d)
    (hmove : ∀ o n, i ≠ .move o n) : t.reg = s.reg := by
  by_cases hscan : i = .scan
  · subst hscan
    rw [(scan_next h).1, State.finish_reg, State.writeScanCache_reg]
  · cases hbus : i.busFrame with
    | some f =>
      rw [exec_busFrame hbus] at h
      obtain ⟨-, ⟨-, hr, -⟩, -⟩ := transact_keeps h
      exact hr
    | none =>
      obtain ⟨c, st, res, ha⟩ := exec_answer hreg hmove hscan hbus s
      cases h.symm.trans (ha s.reg)
      rfl

/-- Only REGISTER, MOVE, SCAN and the transactions read the registry. -/
theorem exec_congr_reg {i : Instr} {s t : State} (h : exec i s = .next t) (hreg : ∀ a d, i ≠ .register a d)
    (hmove : ∀ o n, i ≠ .move o n) (hscan : i ≠ .scan) (hbus : i.busFrame = none)
    (r : Vector (Option DevId) 16) : exec i { s with reg := r } = .next { t with reg := r } := by
  obtain ⟨c, st, res, ha⟩ := exec_answer hreg hmove hscan hbus s
  cases h.symm.trans (ha s.reg)
  exact ha r

/-! ### Operations that read the registry -/

/-- With no device registered, a transaction of a frame ends with no route or with a miss (R94). -/
theorem transact_emptyReg {s : State} (hs : ∀ k, s.readReg k = none) {raw t : Bytes} {p : ParsedFrame}
    (hf : FrameAt raw p t) (hint : Option Int) :
    EndedWith (exec (.transact raw hint) s) .emptyNoRoute ∨ EndedWith (exec (.transact raw hint) s) .emptyMiss := by
  have hasked : AskedReturn s p := by
    rintro d ⟨-, -, k, hk, -⟩
    simp [hs] at hk
  rw [show exec (.transact raw hint) s = deliver (s.resolveKey p hint) p s from transact_eq_deliver hf hasked hint]
  cases s.resolveKey p hint with
  | none => exact .inl ⟨_, _, rfl, rfl, rfl⟩
  | some k =>
    simp only [deliver, hs k]
    exact .inr ⟨_, _, rfl, rfl, rfl⟩

/-- Outcomes that ended with different statuses left different responses. -/
theorem response_ne_of_endedWith {o o' : Host.Outcome State Fault Refusal} {a b : Status} (h : EndedWith o a)
    (h' : EndedWith o' b) (hab : a ≠ b) : ∃ t u, o = .next t ∧ o' = .next u ∧ t.response ≠ u.response := by
  obtain ⟨t, x, ht, hx, rfl⟩ := h
  obtain ⟨u, y, hu, hy, rfl⟩ := h'
  refine ⟨t, u, ht, hu, fun hxy => hab ?_⟩
  rw [hx, hy, Option.some.injEq] at hxy
  rw [hxy]

/-- A transaction that ends with EMPTY_DEVICE answers differently once every slot is empty. -/
theorem transact_response_ne_emptyReg {s : State} {raw t : Bytes} {p : ParsedFrame} {hint : Option Int}
    (hf : FrameAt raw p t) (h : EndedWith (exec (.transact raw hint) s) .emptyDevice) :
    ∃ u v, exec (.transact raw hint) s = .next u ∧ exec (.transact raw hint) { s with reg := emptyReg } = .next v ∧
      u.response ≠ v.response := by
  have hs : ∀ k, State.readReg { s with reg := emptyReg } k = none := by simp [State.readReg, emptyReg]
  rcases transact_emptyReg hs hf hint with he | he <;> exact response_ne_of_endedWith h he (by decide)

/-! ### A bus with one device -/

/-- The device of the examples. -/
def sensor : DevId := ⟨1⟩

/-- What it shows: a unique id and no texts, and its `summary` calls return. -/
def sensorView : DeviceView := ⟨0, #v[0x26#8, 0x0A#8, 0x12#8, 0x34#8, 0x56#8], "", "", "", true⟩

/-- The device stands at key 0, and its next reply is no frame. -/
def sensorBus (way : LongRoute) : State :=
  { State.reset with
    params := { Config.specParams with longRoute := way }
    reg := emptyReg.set 0 (some sensor)
    devices := [(sensor, sensorView)]
    handleResults := [.returns ⟨[], sensorView⟩] }

/-- A short request to key 0, as parsed. -/
def shortFields : ParsedFrame := ⟨0, 0x02#8, [0x80#8], 0x00#8, 0x00#8, [], 0x82#8, true⟩

/-- The bytes of the short request. -/
def shortBytes : Bytes := [0x02#8, 0x80#8, 0x00#8, 0x00#8, 0x82#8]

/-- A long request to the device's unique id, as parsed. -/
def longFields : ParsedFrame :=
  ⟨0, 0x82#8, [0xA6#8, 0x0A#8, 0x12#8, 0x34#8, 0x56#8], 0x00#8, 0x00#8, [], 0x5E#8, true⟩

/-- The bytes of the long request. -/
def longBytes : Bytes := [0x82#8, 0xA6#8, 0x0A#8, 0x12#8, 0x34#8, 0x56#8, 0x00#8, 0x00#8, 0x5E#8]

theorem shortBytes_frameAt : FrameAt shortBytes shortFields [] := parseFrameRest_eq_ok.mp (by rfl)

theorem longBytes_frameAt : FrameAt longBytes longFields [] := parseFrameRest_eq_ok.mp (by rfl)

/-- The short request reaches the device by its address bits (R86). -/
theorem shortBytes_reaches (way : LongRoute) :
    EndedWith (exec (.transact shortBytes (some 0)) (sensorBus way)) .emptyDevice := by
  cases way <;> exact ⟨_, _, rfl, rfl, rfl⟩

/-- The long request reaches the device by the hint (R87) and by its unique id (R88). -/
theorem longBytes_reaches (way : LongRoute) :
    EndedWith (exec (.transact longBytes (some 0)) (sensorBus way)) .emptyDevice := by
  cases way <;> exact ⟨_, _, rfl, rfl, rfl⟩

/-- SCAN lists the registered device, and nothing once every slot is empty (R85). -/
theorem scan_response_ne_emptyReg : ∃ t u, exec .scan (sensorBus .hint) = .next t ∧
    exec .scan { sensorBus .hint with reg := emptyReg } = .next u ∧ t.response ≠ u.response :=
  ⟨_, _, rfl, rfl, by decide⟩

end Sys2Proof.RegistryAccess

open Sys2Proof Sys2Proof.Machine Sys2Proof.RegistryAccess

/-- Settles O47: the operations that make no access to the registry answer the same whatever it holds, and
emptying the registry of a bus with one device changes what SCAN and each kind of transaction answer. -/
theorem registryWritersAndReaders : Obligations.RegistryWritersAndReaders := by
  refine ⟨fun _ _ _ => exec_keeps_reg, fun _ _ _ r h hreg hmove hscan hbus => exec_congr_reg h hreg hmove hscan hbus r,
    ?_, ?_⟩
  · obtain ⟨t, u, ht, hu, hne⟩ := scan_response_ne_emptyReg
    exact ⟨_, t, u, emptyReg, ht, hu, hne⟩
  · rintro way _ (rfl | rfl)
    · obtain ⟨t, u, ht, hu, hne⟩ := transact_response_ne_emptyReg shortBytes_frameAt (shortBytes_reaches way)
      exact ⟨_, _, _, _, t, u, emptyReg, shortBytes_frameAt, rfl, rfl, ht, hu, hne⟩
    · obtain ⟨t, u, ht, hu, hne⟩ := transact_response_ne_emptyReg longBytes_frameAt (longBytes_reaches way)
      exact ⟨_, _, _, _, t, u, emptyReg, longBytes_frameAt, rfl, rfl, ht, hu, hne⟩

end

section
/-! PROOFS. The checksum flag (R51): which bytes of the input `valid_csum` covers, and what DECODE answers
on an input that is a frame and on one that is none. -/

namespace Sys2Proof.ChecksumFlag

open Sys2Proof Sys2Proof.Machine

/-! ### DECODE's two answers -/

theorem exec_decode_of_frameAt {raw t : Bytes} {f : ParsedFrame} (h : FrameAt raw f t) (s : State) :
    exec (.decode raw) s = .next (s.finish [] .ok (.frame f)) := by
  rcases decode_cases raw s with ⟨g, u, hg, hd⟩ | ⟨hn, -⟩
  · rw [hd, (h.unique hg).1]
  · exact absurd ⟨f, t, h⟩ hn

theorem exec_decode_of_no_frame {raw : Bytes} (h : ¬ ∃ f t, FrameAt raw f t) (s : State) :
    exec (.decode raw) s = .next (s.finish [] .absent .none) := by
  rcases decode_cases raw s with ⟨f, t, hf, -⟩ | ⟨-, hd⟩
  · exact absurd ⟨f, t, hf⟩ h
  · exact hd

/-! ### The bytes under the checksum -/

/-- From start through checksum: the covered body, and the checksum byte after it (R43, R51). -/
theorem drop_take_frameLength {raw t : Bytes} {f : ParsedFrame} (h : FrameAt raw f t) :
    (raw.take (frameLength f)).drop f.preambles =
      frameBody f.start f.address f.command f.byteCount f.data ++ [f.rxChecksum] := by
  have hraw : raw = List.replicate f.preambles 0xFF#8 ++
      (frameBody f.start f.address f.command f.byteCount f.data ++ [f.rxChecksum]) ++ t := by
    simpa [frameBody_eq] using h.bytes
  have hlen : frameLength f = (List.replicate f.preambles 0xFF#8 ++
      (frameBody f.start f.address f.command f.byteCount f.data ++ [f.rxChecksum])).length := by
    simp [frameLength, frameBody]
    omega
  rw [hlen, hraw, List.take_left, List.drop_left' List.length_replicate]

/-- `csum_ok` and `valid_csum` are one condition: the fold over the body is the checksum byte exactly if the
fold over both is zero. -/
theorem csumOk_iff_validChecksum {raw t : Bytes} {f : ParsedFrame} (h : FrameAt raw f t) :
    f.csumOk = true ↔ validChecksum raw f := by
  rw [validChecksum, drop_take_frameLength h, h.csumOk, ← frameBody_eq, decide_eq_true_iff, xorFold_append,
    xorFold_cons, xorFold_nil, BitVec.xor_zero, xor_eq_zero_iff]

/-- After its preambles, an encoded frame folds to zero, whatever its start and address are (R68). -/
theorem xorFold_drop_encodeFrame (p : Nat) (st : Byte) (address : Bytes) (cmd : Byte) (data : Bytes) :
    xorFold ((encodeFrame p st address cmd data).drop p) = 0x00#8 := by
  have hp : (preambleBytes p).length = p := List.length_replicate
  rw [encodeFrame, layoutFrame, List.append_assoc, List.drop_left' hp, xorFold_append_self]

/-- What ENCODE returns is an encoded frame with its operands' preamble count. -/
theorem eq_encodeFrame_of_exec_encode {p : Nat} {start command : Int} {address data f : Bytes} {s t : State}
    (h : exec (.encode p start address command data) s = .next t) (hr : t.response = some ⟨.ok, .bytes f⟩) :
    ∃ st cmd : Byte, f = encodeFrame p st address cmd data := by
  rcases encode_cases p start address command data s with ⟨g, hg, he⟩ | ⟨-, he⟩ <;> cases h.symm.trans he <;>
    cases hr
  obtain ⟨st, cmd, -, -, -, hf⟩ := encodeChecked_eq_some.mp hg
  exact ⟨st, cmd, hf⟩

end Sys2Proof.ChecksumFlag

open Sys2Proof Sys2Proof.Machine Sys2Proof.ChecksumFlag

/-- Settles O16: `valid_csum` folds the covered body and the checksum byte together, so that it is zero exactly
if the two agree; DECODE answers OK on every frame, and what ENCODE appends makes the fold zero. -/
theorem checksumFlagIsFrameValidity : Obligations.ChecksumFlagIsFrameValidity := by
  refine ⟨fun _ _ _ => csumOk_iff_validChecksum, fun _ _ _ s hf => exec_decode_of_frameAt hf s, ?_⟩
  intro p start address command data s t f h hr
  obtain ⟨st, cmd, rfl⟩ := eq_encodeFrame_of_exec_encode h hr
  exact xorFold_drop_encodeFrame p st address cmd data

end

section
/-! PROOFS. The reserved and forced bits on the wire (R60): the bits that the address builders force, the bits
that the router does not look at, and the start bytes that are no delimiter. -/

namespace Sys2Proof.WireBits

open Sys2Proof Sys2Proof.Machine

/-! ### Bits the address builders force (R48, R49) -/

theorem shortAddress_reservedBits (n : Int) : (shortAddress n).extractLsb' 4 3 = 0#3 := by
  have h : ∀ k : Key, (0x80#8 ||| keyByte k).extractLsb' 4 3 = 0#3 := by decide
  exact h _

theorem or_masterFlag (b : Byte) : (b ||| 0x80#8).extractLsb' 7 1 = 1#1 := by
  rw [BitVec.extractLsb'_or]
  exact BitVec.or_allOnes

theorem longAddress_masterFlag (u : Bytes) : ∃ b more, longAddress u = b :: more ∧ b.extractLsb' 7 1 = 1#1 := by
  unfold longAddress
  split
  · exact ⟨_, _, rfl, or_masterFlag _⟩
  · exact ⟨_, _, rfl, by decide⟩

/-! ### Bits the router does not look at (R86, R88) -/

/-- A short frame goes to the key in bits 3:0 of its address byte (R86). -/
theorem resolveKey_short {p : ParsedFrame} {a : Byte} (hw : hasWidth p.start p.address.length)
    (ha : p.address = [a]) (hint : Option Int) (s : State) : s.resolveKey p hint = some (keyOfByte a) :=
  (resolveKey_eq_some hw).mpr (.inl ⟨a, ha, keyOfByte_val a⟩)

/-- A short frame is resolved without a `summary` call (R86, R96). -/
theorem askedDevices_short {p : ParsedFrame} {a : Byte} (hw : hasWidth p.start p.address.length)
    (ha : p.address = [a]) (s : State) : s.askedDevices p = [] :=
  if_pos ((hasWidth_short hw).mpr (by rw [ha]; rfl))

/-- The bits 7:4 of a short address byte are not looked at. -/
theorem transact_sameRoute_of_lowBits {s : State} {p q : ParsedFrame} {raw raw' t t' : Bytes} {a b : Byte}
    (hp : FrameAt raw p t) (hq : FrameAt raw' q t') (ha : p.address = [a]) (hb : q.address = [b])
    (hab : a.extractLsb' 0 4 = b.extractLsb' 0 4) (hint : Option Int) :
    SameRoute (transact raw hint s) (transact raw' hint s) := by
  refine transact_sameRoute hp hq ?_ ?_
  · rw [resolveKey_short hp.width ha, resolveKey_short hq.width hb, keyOfByte, keyOfByte, hab]
  · rw [askedDevices_short hp.width ha, askedDevices_short hq.width hb]

/-- The directory comparison does not look at bit 7 of byte 0 (R88). -/
theorem answersTo_flip_masterFlag (s : State) (b : Byte) (more : Bytes) :
    s.answersTo ((b ^^^ 0x80#8) :: more) = s.answersTo (b :: more) := by
  have hflip : ∀ b : Byte, (b ^^^ 0x80#8) &&& 0x7F#8 = b &&& 0x7F#8 := by decide
  funext e
  unfold State.answersTo longAddressMatches
  cases (s.view e.2).uniqueId.toList <;> simp only [hflip]

theorem isShortStart_of_long {p : ParsedFrame} (hw : hasWidth p.start p.address.length)
    (h5 : p.address.length = 5) : ¬ isShortStart p.start = true := fun h => by
  have h1 := (hasWidth_short hw).mp h
  omega

/-- Under DIRECTORY a long frame goes to the key the directory gives for its address (R88). -/
theorem resolveKey_directory {s : State} {p : ParsedFrame} (hw : hasWidth p.start p.address.length)
    (h5 : p.address.length = 5) (hr : s.params.longRoute = .directory) (hint : Option Int) :
    s.resolveKey p hint = s.directoryKey p.address := by
  rw [State.resolveKey, if_neg (isShortStart_of_long hw h5), hr]

/-- Under DIRECTORY a long frame asks the occupied slots up to the first that answers (R88). -/
theorem askedDevices_directory {s : State} {p : ParsedFrame} (hw : hasWidth p.start p.address.length)
    (h5 : p.address.length = 5) (hr : s.params.longRoute = .directory) :
    s.askedDevices p = (askedUpTo (s.answersTo p.address) s.occupied).map Prod.snd := by
  rw [State.askedDevices, if_neg (isShortStart_of_long hw h5), hr]

/-- Under DIRECTORY the lookup of a long frame turns on which devices answer to its address (R88). -/
theorem transact_sameRoute_of_answersTo {s : State} {p q : ParsedFrame} {raw raw' t t' : Bytes}
    (hp : FrameAt raw p t) (hq : FrameAt raw' q t') (hr : s.params.longRoute = .directory)
    (hp5 : p.address.length = 5) (hq5 : q.address.length = 5) (h : s.answersTo p.address = s.answersTo q.address)
    (hint : Option Int) : SameRoute (transact raw hint s) (transact raw' hint s) := by
  refine transact_sameRoute hp hq ?_ ?_
  · rw [resolveKey_directory hp.width hp5 hr, resolveKey_directory hq.width hq5 hr, State.directoryKey, h,
      State.directoryKey]
  · rw [askedDevices_directory hp.width hp5 hr, askedDevices_directory hq.width hq5 hr, h]

/-! ### Start bytes that are no delimiter (R47, R72) -/

theorem no_frame_of_unrecognizedStart {st : Byte} (hst : st ≠ 0xFF#8) (hw : ¬ ∃ w, hasWidth st w) (n : Nat)
    (rest : Bytes) : ¬ ∃ f t, FrameAt (List.replicate n 0xFF#8 ++ st :: rest) f t := by
  have hnone : addressWidth st = none :=
    Option.eq_none_iff_forall_not_mem.mpr fun w h => hw ⟨w, addressWidth_eq_some.mp h⟩
  rintro ⟨f, t, hf⟩
  have hok := parseFrameRest_eq_ok.mpr hf
  rw [parseFrameRest_start hst, hnone] at hok
  cases hok

/-! ### Any command, byte count and data -/

/-- The frame layout as the grammar of R43 writes it out. -/
theorem layoutFrame_eq (n : Nat) (st : Byte) (address : Bytes) (cmd : Byte) (data : Bytes) (rx : Byte) :
    layoutFrame n st address cmd data rx = List.replicate n 0xFF#8 ++ [st] ++ address ++
      [cmd, BitVec.ofNat 8 data.length] ++ data ++ [rx] := by
  simp [layoutFrame, preambleBytes, Config.preambleByte, frameBody_eq, lengthByte]

end Sys2Proof.WireBits

open Sys2Proof Sys2Proof.Machine Sys2Proof.ChecksumFlag Sys2Proof.WireBits

/-- Settles O44: the builders force the bits, routing turns on bits 3:0 of a short address or on which devices
answer to a long one, and the grammar of frames leaves command, byte count and data free. -/
theorem reservedAndForcedBitsOnTheWire : Obligations.ReservedAndForcedBitsOnTheWire := by
  refine ⟨?saddr, ?short, ?laddr, ?directory, ?start, ?fields⟩
  case saddr =>
    intro n s t a h hr
    cases h
    cases hr
    exact ⟨shortAddress n, rfl, shortAddress_reservedBits n, shortAddress_masterFlag n⟩
  case short =>
    intro s p q raw raw' t t' hint a b hp hq ha hb hab
    exact transact_sameRoute_of_lowBits hp hq ha hb hab hint
  case laddr =>
    intro u a g s t h hr
    cases h
    cases hr
    exact longAddress_masterFlag u
  case directory =>
    intro s p q raw raw' t t' hint b more hp hq hr hmore ha hb
    refine transact_sameRoute_of_answersTo hp hq hr (by simp [ha, hmore]) (by simp [hb, hmore]) ?_ hint
    rw [ha, hb, answersTo_flip_masterFlag]
  case start =>
    intro n st rest s hst hw
    exact exec_decode_of_no_frame (no_frame_of_unrecognizedStart hst hw n rest) s
  case fields =>
    intro n st address cmd data rx s hw hd
    have hf := layoutFrame_frameAt hw hd n cmd rx []
    rw [List.append_nil, layoutFrame_eq] at hf
    exact ⟨_, exec_decode_of_frameAt hf s, rfl, rfl, lengthByte_toNat hd, rfl⟩

end

section
/-! PROOFS. Two engines of the frame codec and what ENCODE takes from them: the XOR loop of the checksum engine
(R64) and the preamble generator (R65). -/

namespace Sys2Proof.Engines

open Sys2Proof Sys2Proof.Machine

/-! ### The checksum engine's loop (R64) -/

/-- The loop starts from 0x00, so that its value is the fold alone (R12). -/
theorem foldl_xor_zero (b : Bytes) : b.foldl (· ^^^ ·) 0x00#8 = xorFold b := by
  rw [foldl_xor_eq, BitVec.zero_xor]

/-- A byte that occurs an even number of times occurs again after its first occurrence. -/
theorem mem_of_even_count_cons {x : Byte} {b : Bytes} (h : (x :: b).count x % 2 = 0) : x ∈ b := by
  rw [List.count_cons_self] at h
  exact List.count_pos_iff.mp (by omega)

/-- Taking out one pair of a byte keeps every count even or odd as it was. -/
theorem count_pair_mod_two (x y : Byte) (b : Bytes) : (x :: x :: b).count y % 2 = b.count y % 2 := by
  rw [List.count_cons, List.count_cons, Nat.add_assoc, ← Nat.two_mul, Nat.add_mul_mod_self_left]

/-- Even repeats cancel: the head stands with a second occurrence, the pair folds to zero, and what is left is a
shorter sequence of even repeats. -/
theorem xorFold_eq_zero_of_even_counts : ∀ b : Bytes, (∀ x : Byte, b.count x % 2 = 0) → xorFold b = 0x00#8
  | [], _ => xorFold_nil
  | x :: b, h => by
    have hx : x ∈ b := mem_of_even_count_cons (h x)
    have hpair : (x :: b).Perm (x :: x :: b.erase x) := (List.perm_cons_erase hx).cons x
    have hrest : ∀ y : Byte, (b.erase x).count y % 2 = 0 := fun y => by
      rw [← count_pair_mod_two x y, ← hpair.count_eq, h]
    calc xorFold (x :: b) = x ^^^ (x ^^^ xorFold (b.erase x)) := xorFold_perm hpair
      _ = xorFold (b.erase x) := by rw [← BitVec.xor_assoc, BitVec.xor_self, BitVec.zero_xor]
      _ = 0x00#8 := xorFold_eq_zero_of_even_counts _ hrest
termination_by b => b.length
decreasing_by exact Nat.lt_succ_of_le List.length_erase_le

/-! ### The parts of ENCODE's frame (R68) -/

/-- ENCODE with its operands in range answers OK with the encoded frame. -/
theorem exec_encode_inRange (p : Nat) (st : Byte) (address : Bytes) (cmd : Byte) {data : Bytes}
    (hd : data.length ≤ 255) (s : State) : exec (.encode p st.toNat address cmd.toNat data) s =
      .next (s.finish [] .ok (.bytes (encodeFrame p st address cmd data))) := by
  have hc : encodeChecked p st.toNat address cmd.toNat data = some (encodeFrame p st address cmd data) :=
    encodeChecked_eq_some.mpr ⟨st, cmd, rfl, rfl, hd, rfl⟩
  rcases encode_cases p st.toNat address cmd.toNat data s with ⟨f, hf, he⟩ | ⟨hn, -⟩
  · cases hf.symm.trans hc
    exact he
  · cases hn.symm.trans hc

/-- The last byte of an encoded frame is the fold over the bytes from start through the last data byte. -/
theorem encodeFrame_getLast? (p : Nat) (st : Byte) (address : Bytes) (cmd : Byte) (data : Bytes) :
    (encodeFrame p st address cmd data).getLast? =
      some (xorFold (frameBody st address cmd (lengthByte data) data)) :=
  List.getLast?_concat

/-- An encoded frame starts with the preamble generator's bytes, and its start byte follows. -/
theorem encodeFrame_preambles (p : Nat) (st : Byte) (address : Bytes) (cmd : Byte) (data : Bytes) :
    ∃ rest : Bytes, encodeFrame p st address cmd data = preambleBytes p ++ st :: rest :=
  ⟨_, List.append_assoc ..⟩

end Sys2Proof.Engines

open Sys2Proof Sys2Proof.Machine Sys2Proof.Engines

/-- Settles O8: the loop's value is the fold, which no order of the bytes changes and in which pairs cancel; what
ENCODE appends is this fold over the frame's body. -/
theorem checksumEngineFoldsXor : Obligations.ChecksumEngineFoldsXor := by
  unfold Obligations.ChecksumEngineFoldsXor
  simp only [foldl_xor_zero]
  refine ⟨fun b s => ⟨rfl, rfl⟩, fun b c => xorFold_perm, xorFold_eq_zero_of_even_counts, xorFold_append_self,
    by decide, ?_⟩
  intro p st address cmd data s hd
  refine ⟨_, exec_encode_inRange p st address cmd hd s, ?_⟩
  rw [encodeFrame_getLast?, frameBody_eq, lengthByte]

/-- Settles O9: PREAMBLE answers with the replicated byte, and ENCODE lays out the same bytes before the start
byte. -/
theorem preambleGeneratorRepeatsFF : Obligations.PreambleGeneratorRepeatsFF := by
  intro n s
  refine ⟨rfl, preambleBytes n, rfl, List.length_replicate, fun _ => List.eq_of_mem_replicate, ?_⟩
  intro st address cmd data hd
  obtain ⟨rest, hrest⟩ := encodeFrame_preambles n st address cmd data
  exact ⟨rest, hrest ▸ exec_encode_inRange n st address cmd hd s⟩

end

section
/-! PROOFS. The delimiter/address selection and the length checks of DECODE (R72, R73): what the parser does at
each of its two length checks, and the answer that follows. -/

namespace Sys2Proof.LengthChecks

open Sys2Proof Sys2Proof.Machine Sys2Proof.ChecksumFlag

/-! ### The parser past each check -/

/-- Past a recognized start byte the parser reads an address of the width the byte selects (R72). -/
theorem parseFrameRest_recognized {st : Byte} {w : Nat} (h : hasWidth st w) (p : Nat) (rest : Bytes) :
    parseFrameRest (List.replicate p 0xFF#8 ++ st :: rest) = parseHeader p st w rest := by
  rw [parseFrameRest_start (hasWidth_ne_preamble h), addressWidth_eq_some.mpr h]

/-- With `w + 2` bytes after the start byte, the address is the first `w` of them, and the command and the byte
count follow (R73). -/
theorem parseHeader_long {w : Nat} {rest body : Bytes} {cmd bc : Byte} (h : rest.drop w = cmd :: bc :: body)
    (p : Nat) (st : Byte) : parseHeader p st w rest = parseBody p st (rest.take w) cmd bc body := by
  rw [parseHeader, h]

/-- With `byte_count + 1` bytes after the byte count, the data and the checksum are there, and the record has the
fields read so far (R73). -/
theorem parseBody_long {bc : Byte} {body : Bytes} (h : bc.toNat + 1 ≤ body.length) (p : Nat) (st : Byte)
    (address : Bytes) (cmd : Byte) : ∃ f t, parseBody p st address cmd bc body = .ok (f, t) ∧ f.start = st ∧
      f.address = address ∧ f.command = cmd ∧ f.byteCount = bc ∧ f.data = body.take bc.toNat := by
  rw [parseBody, List.drop_eq_getElem_cons (by omega)]
  exact ⟨_, _, rfl, rfl, rfl, rfl, rfl, rfl⟩

/-! ### The answer -/

/-- Whichever check the parser fails, DECODE answers ABSENT (R105). -/
theorem exec_decode_of_parse_error {raw : Bytes} {e : ParseFailure} (h : parseFrameRest raw = .error e) (s : State) :
    exec (.decode raw) s = .next (s.finish [] .absent .none) := by
  have hp : parseFrame raw = .error e := by rw [parseFrame, h, Except.map]
  exact exec_decode_of_no_frame (parseFrame_error hp) s

end Sys2Proof.LengthChecks

open Sys2Proof Sys2Proof.Machine Sys2Proof.ChecksumFlag Sys2Proof.WireBits Sys2Proof.LengthChecks

/-- Settles O15: past a recognized start byte DECODE answers as the parser's two length checks say, one before the
byte count and one after it. -/
theorem delimiterAndLengthDecideDecode : Obligations.DelimiterAndLengthDecideDecode := by
  intro n st rest s hst
  refine ⟨fun hw => exec_decode_of_no_frame (no_frame_of_unrecognizedStart hst hw n rest) s, fun w hw => ?_⟩
  have hstart := parseFrameRest_recognized hw n rest
  refine ⟨fun hlen => exec_decode_of_parse_error (hstart.trans (parseHeader_short hlen)) s, ?_⟩
  intro cmd bc body hrest
  have hheader := hstart.trans (parseHeader_long hrest n st)
  refine ⟨fun hlen => exec_decode_of_parse_error (hheader.trans (parseBody_short hlen)) s, fun hlen => ?_⟩
  obtain ⟨f, t, hbody, hfst, haddr, hcmd, hbc, hdata⟩ := parseBody_long hlen n st (rest.take w) cmd
  have hframe : FrameAt _ f t := parseFrameRest_eq_ok.mp (hheader.trans hbody)
  have hwidth : f.address.length = w :=
    Option.some.inj ((addressWidth_eq_some.mpr (hfst ▸ hframe.width)).symm.trans (addressWidth_eq_some.mpr hw))
  exact ⟨f, exec_decode_of_frameAt hframe s, hfst, haddr, hwidth, hcmd, hbc, hdata⟩

end

section
/-! PROOFS. The decoder and the encoder of words undo each other: command-port requests by the op code map (R58,
R61), wire frames by the frame grammar (R43 to R46). -/

namespace Sys2Proof.WordRoundTrip

open Sys2Proof Sys2Proof.Machine

/-! ### Wire frames -/

/-- The frame row of a delimiter carries the delimiter's bytes. -/
theorem encode_frameInstr {st : Byte} {w : Nat} (h : hasWidth st w) (f : WireFrame) (hint : Option Int) :
    encode (frameInstr st f hint) = .frame (f.bytes st) hint := by
  rcases h with ⟨rfl, -⟩ | ⟨rfl, -⟩ | ⟨rfl, -⟩ | ⟨rfl, -⟩ <;> rfl

/-- The frame row of a delimiter asks for the address width that the delimiter selects. -/
theorem wellFormed_frameInstr {st : Byte} {w : Nat} (h : hasWidth st w) (f : WireFrame) (hint : Option Int) :
    (frameInstr st f hint).wellFormed = f.wellFormed w := by
  rcases h with ⟨rfl, rfl⟩ | ⟨rfl, rfl⟩ | ⟨rfl, rfl⟩ | ⟨rfl, rfl⟩ <;> rfl

theorem wireFrame_wellFormed_iff {w : Nat} {f : WireFrame} :
    f.wellFormed w = true ↔ f.address.length = w ∧ f.data.length ≤ 255 := by
  rw [WireFrame.wellFormed, Bool.and_eq_true, decide_eq_true_iff, decide_eq_true_iff, Config.maxDataLen]

/-- The laid-out bytes of a well-formed wire frame decode to the frame row of its delimiter. -/
theorem decode_bytes {st : Byte} {w : Nat} (hst : hasWidth st w) {f : WireFrame} (hf : f.wellFormed w = true)
    (hint : Option Int) : decode (.frame (f.bytes st) hint) = .ok (frameInstr st f hint) := by
  obtain ⟨rfl, hd⟩ := wireFrame_wellFormed_iff.mp hf
  obtain ⟨p, hp, rfl, hfields⟩ := parseFrameRest_bytes hst hd
  simp only [decode, hp, hfields]

/-- A wire frame that decodes is the word of a well-formed frame row. -/
theorem encode_of_decode_frame {raw : Bytes} {hint : Option Int} {i : Instr} (h : decode (.frame raw hint) = .ok i) :
    i.wellFormed = true ∧ encode i = .frame raw hint := by
  cases hp : parseFrameRest raw with
  | error why => simp only [decode, hp, reduceCtorEq] at h
  | ok parsed =>
    obtain ⟨p, trailing⟩ := parsed
    simp only [decode, hp, Except.ok.injEq] at h
    subst h
    have hf : FrameAt raw p trailing := parseFrameRest_eq_ok.mp hp
    have hdata : p.data.length ≤ 255 := by
      have := p.byteCount.isLt
      have := hf.dataLength
      omega
    rw [wellFormed_frameInstr hf.width, encode_frameInstr hf.width, hf.wire]
    exact ⟨wireFrame_wellFormed_iff.mpr ⟨rfl, hdata⟩, rfl⟩

/-! ### Requests -/

/-- A request that decodes is the word of a well-formed operation, but for the operands of a reserved op. -/
theorem encode_of_decodeRequest {op : BitVec 4} {args : List Arg} {i : Instr} (h : decodeRequest op args = .ok i) :
    i.wellFormed = true ∧ (i ≠ .reserved0 → i ≠ .reservedF → encode i = .request op args) := by
  unfold decodeRequest at h
  split at h
  case h_1 =>
    cases h
    exact ⟨rfl, fun h0 => absurd rfl h0⟩
  case h_16 =>
    cases h
    exact ⟨rfl, fun _ hF => absurd rfl hF⟩
  all_goals
    rename_i hop
    split at h <;> cases h
    exact ⟨rfl, fun _ _ => congrArg (PortWord.request · _) (BitVec.eq_of_toNat_eq hop.symm)⟩

end Sys2Proof.WordRoundTrip

open Sys2Proof Sys2Proof.Machine Sys2Proof.WordRoundTrip

/-- Settles O1: a request's op code and operand types select its own row again, and a wire frame's bytes parse to
its fields, whose delimiter selects the row. -/
theorem decodeOfEncodeIsTheOperation : Obligations.DecodeOfEncodeIsTheOperation := by
  intro i hwf
  cases i with
  | frameShortReq f hint => exact decode_bytes (.inl ⟨rfl, rfl⟩) hwf hint
  | frameShortRsp f hint => exact decode_bytes (.inr (.inl ⟨rfl, rfl⟩)) hwf hint
  | frameLongReq f hint => exact decode_bytes (.inr (.inr (.inl ⟨rfl, rfl⟩))) hwf hint
  | frameLongRsp f hint => exact decode_bytes (.inr (.inr (.inr ⟨rfl, rfl⟩))) hwf hint
  | _ => rfl

/-- Settles O2: the decoder takes apart a request only by its op code and operands, and a frame only by its
grammar. -/
theorem encodeOfDecodeIsTheWord : Obligations.EncodeOfDecodeIsTheWord := by
  intro w i h
  cases w with
  | request op args => exact encode_of_decodeRequest h
  | frame raw hint =>
    obtain ⟨hwf, hword⟩ := encode_of_decode_frame h
    exact ⟨hwf, fun _ _ => hword⟩

/-- Settles O3: each clause is the arm of the op code map that its op code names. -/
theorem opCodesNameTheOperations : Obligations.OpCodesNameTheOperations :=
  ⟨fun _ => rfl, fun _ => rfl, fun _ => rfl, fun _ => rfl, fun _ _ _ _ _ => rfl, fun _ => rfl, fun _ => rfl,
    fun _ _ => rfl, rfl, fun _ _ _ => rfl, fun _ _ => rfl, fun _ _ => rfl, rfl, fun _ _ => rfl, fun _ => rfl,
    fun _ => rfl⟩

/-- Settles O4: the parser runs on the bytes of each frame. -/
theorem writtenOutFramesDecode : Obligations.WrittenOutFramesDecode := ⟨rfl, rfl, rfl, rfl, rfl⟩

end

section
/-! PROOFS. The frame codec: the address builders on every operand, ENCODE in and out of range, DECODE_RSP on a
frame and on no frame, and the round trip of ENCODE and DECODE (R66 to R77). -/

namespace Sys2Proof.CodecAnswers

open Sys2Proof Sys2Proof.Machine

/-! ### The address builders (R66, R67) -/

/-- The low four bits of the short address byte are those of the integer in two's complement (R9). -/
theorem shortAddress_lowBits (n : Int) : (shortAddress n).extractLsb' 0 4 = BitVec.ofInt 4 n := by
  have hkey : ∀ k : Key, (0x80#8 ||| keyByte k).extractLsb' 0 4 = BitVec.ofNat 4 k.val := by decide
  have hmod : BitVec.ofNat 4 (keyOf n).val = BitVec.ofInt 4 n := by
    apply BitVec.eq_of_toNat_eq
    rw [BitVec.toNat_ofNat, BitVec.toNat_ofInt, Nat.mod_eq_of_lt (keyOf n).isLt]
    rfl
  rw [shortAddress, hkey, hmod]

/-- Fewer than five bytes give the placeholder (R67). -/
theorem longAddress_of_short {u : Bytes} (h : u.length < 5) :
    longAddress u = [0x80#8, 0x00#8, 0x00#8, 0x00#8, 0x00#8] := by
  unfold longAddress
  split
  · simp only [List.length_cons] at h
    omega
  · rfl

/-! ### ENCODE out of range (R68) -/

theorem exec_encode_outOfRange {p : Nat} {start command : Int} {address data : Bytes}
    (h : start < 0 ∨ 255 < start ∨ command < 0 ∨ 255 < command ∨ 255 < data.length) (s : State) :
    exec (.encode p start address command data) s = .next (s.finish [] .argRange .none) := by
  rcases encode_cases p start address command data s with ⟨f, hf, -⟩ | ⟨-, he⟩
  · obtain ⟨st, cmd, hst, hcmd, hd, -⟩ := encodeChecked_eq_some.mp hf
    have := st.isLt
    have := cmd.isLt
    omega
  · exact he

/-! ### DECODE_RSP (R76) -/

theorem exec_decodeRsp_of_frameAt {raw t : Bytes} {f : ParsedFrame} (h : FrameAt raw f t) (s : State) :
    exec (.decodeRsp raw) s = .next (s.finish [] .ok (.response (splitResponse f))) := by
  rcases decodeRsp_cases raw s with ⟨g, u, hg, hd⟩ | ⟨hn, -⟩
  · rw [hd, (h.unique hg).1]
  · exact absurd ⟨f, t, h⟩ hn

theorem exec_decodeRsp_of_no_frame {raw : Bytes} (h : ¬ ∃ f t, FrameAt raw f t) (s : State) :
    exec (.decodeRsp raw) s = .next (s.finish [] .absent .none) := by
  rcases decodeRsp_cases raw s with ⟨f, t, hf, -⟩ | ⟨-, hd⟩
  · exact absurd ⟨f, t, hf⟩ h
  · exact hd

theorem splitResponse_cons_cons {f : ParsedFrame} {s1 s2 : Byte} {payload : Bytes} (h : f.data = s1 :: s2 :: payload) :
    splitResponse f = ⟨f, some s1, some s2, some payload⟩ := by
  rw [splitResponse, h]

theorem splitResponse_of_short {f : ParsedFrame} (h : f.data.length < 2) :
    splitResponse f = ⟨f, none, none, none⟩ := by
  unfold splitResponse
  split
  · rename_i heq
    simp only [heq, List.length_cons] at h
    omega
  · rfl

end Sys2Proof.CodecAnswers

open Sys2Proof Sys2Proof.Machine Sys2Proof.ChecksumFlag Sys2Proof.WireBits Sys2Proof.Engines Sys2Proof.CodecAnswers

/-- Settles O18: an encoded frame of a recognized start is a frame with anything after it, and its last byte is the
fold that DECODE computes again. -/
theorem encodeThenDecodeReturnsEveryField : Obligations.EncodeThenDecodeReturnsEveryField := by
  intro p st address cmd data trailing s s' hst hd
  exact ⟨_, _, exec_encode_inRange p st address cmd hd s,
    exec_decode_of_frameAt (encodeFrame_frameAt hst hd p cmd trailing) s', rfl, rfl, rfl, rfl, lengthByte_toNat hd, rfl,
    encodeFrame_getLast? p st address cmd data, rfl⟩

/-- Settles O10: bit 7 is forced above the remainder modulo 16. -/
theorem shortAddressOfAnyInteger : Obligations.ShortAddressOfAnyInteger := fun n _ =>
  ⟨shortAddress n, rfl, shortAddress_toNat n, shortAddress_lowBits n, shortAddress_reservedBits n,
    shortAddress_masterFlag n⟩

/-- Settles O11: the operand has five bytes at least, or it is marked. -/
theorem longAddressForcesTheMasterFlag : Obligations.LongAddressForcesTheMasterFlag := by
  refine ⟨fun b0 b1 b2 b3 b4 more s => ?_, fun u s hu => ?_⟩
  · have hdeg : isDegenerate (b0 :: b1 :: b2 :: b3 :: b4 :: more) = false :=
      decide_eq_false (by simp only [List.length_cons]; omega)
    rw [exec, execLaddr, hdeg]
    rfl
  · rw [exec, execLaddr, longAddress_of_short hu, isDegenerate, decide_eq_true hu]
    rfl

/-- Settles O12: in range ENCODE answers with the frame as R68 writes it out; otherwise no pair of bytes stands for
its operands. -/
theorem encodeLaysOutTheFrame : Obligations.EncodeLaysOutTheFrame := by
  refine ⟨fun p st address cmd data s hd => ?_, fun p start address command data s h => exec_encode_outOfRange h s⟩
  rw [exec_encode_inRange p st address cmd hd, encodeFrame_eq]
  rfl

/-- Settles O13: it is the last clause of O16, that every frame ENCODE returns has a valid checksum. -/
theorem encodedFramesXorToZero : Obligations.EncodedFramesXorToZero := by
  obtain ⟨-, -, hencode⟩ := checksumFlagIsFrameValidity
  exact hencode

/-- Settles O14: DECODE's two answers are those on a frame and on no frame. -/
theorem decodeAcceptsExactlyTheFrames : Obligations.DecodeAcceptsExactlyTheFrames := fun _ s =>
  ⟨fun _ _ hf => exec_decode_of_frameAt hf s, fun hn => exec_decode_of_no_frame hn s⟩

/-- Settles O17: DECODE_RSP answers where DECODE does, with the data split after two bytes. -/
theorem decodeResponseSplitsTheData : Obligations.DecodeResponseSplitsTheData := by
  refine fun raw s => ⟨fun f t hf => ⟨fun s1 s2 payload hdata => ?_, fun hdata => ?_⟩,
    fun hn => exec_decodeRsp_of_no_frame hn s⟩
  · rw [exec_decodeRsp_of_frameAt hf, splitResponse_cons_cons hdata]
    rfl
  · rw [exec_decodeRsp_of_frameAt hf, splitResponse_of_short hdata]
    rfl

/-- Settles O19: which answer a codec operation gives is decided by its operands alone. -/
theorem codecOperationsDependOnNoState : Obligations.CodecOperationsDependOnNoState := by
  intro i hi
  cases i with
  | csum | preamble | saddr | laddr => exact ⟨_, fun _ => rfl⟩
  | encode p st a c d => cases h : encodeChecked p st a c d <;> exact ⟨_, fun _ => by rw [exec, execEncode, h]; rfl⟩
  | decode raw => cases h : parseFrame raw <;> exact ⟨_, fun _ => by rw [exec, execDecode, h]; rfl⟩
  | decodeRsp raw => cases h : parseFrame raw <;> exact ⟨_, fun _ => by rw [exec, execDecodeRsp, h]; rfl⟩
  | _ => cases hi

end

section
/-! PROOFS. What an operation that completes has done, said once: each way to complete is a named case, with the next
state written out. -/

namespace Sys2Proof.Completion

open Sys2Proof Sys2Proof.Machine

/-! ### The cases -/

/-- What an operation answers when it has changed nothing but the command port (R105): OK with a result, or a failure
status with none. -/
inductive QuietAnswer (s : State) : Instr → Status → Result → Prop
  | ok {i : Instr} (res : Result) (h0 : i ≠ .reserved0 := by simp) (hF : i ≠ .reservedF := by simp) :
    QuietAnswer s i .ok res
  | decodeAbsent (raw : Bytes) : QuietAnswer s (.decode raw) .absent .none
  | decodeRspAbsent (raw : Bytes) : QuietAnswer s (.decodeRsp raw) .absent .none
  | encodeRange (p : Nat) (st : Int) (a : Bytes) (c : Int) (d : Bytes) :
    QuietAnswer s (.encode p st a c d) .argRange .none
  | buildRange (a c : Int) (d : Bytes) : QuietAnswer s (.build a c d) .argRange .none
  | resolveErr (a c : Int) (d : Bytes) (hfmt : cfgFmt s.cfg = 1#1) (hfallback : s.params.buildFallbackShort = false) :
    QuietAnswer s (.build a c d) .resolveErr .none
  | moveEmpty (o n : Int) : QuietAnswer s (.move o n) .moveEmpty .none
  | reserved0 : QuietAnswer s .reserved0 .illegalOp .none
  | reservedF : QuietAnswer s .reservedF .illegalOp .none

/-- The next state of a transaction that completes (R89, R94). -/
inductive Transacted (s : State) (raw : Bytes) (hint : Option Int) : State → Prop
  | garbled (hn : ¬ ∃ f t, FrameAt raw f t) : Transacted s raw hint (s.finish [] .emptyGarbled (.bytes []))
  | noRoute {p : ParsedFrame} {t : Bytes} (hf : FrameAt raw p t) (hn : ∀ k, ¬ Resolves s p hint k) :
    Transacted s raw hint (s.finish (s.resolveCalls p ++ [.wait]) .emptyNoRoute (.bytes []))
  | miss {p : ParsedFrame} {t : Bytes} {k : Key} (hf : FrameAt raw p t) (hk : Resolves s p hint k)
    (hr : s.readReg k = none) :
    Transacted s raw hint (s.finish (s.resolveCalls p ++ [.wait]) .emptyMiss (.bytes []))
  | badReply {p : ParsedFrame} {t : Bytes} {k : Key} {d : DevId} {h : HandleResult} (hf : FrameAt raw p t)
    (hk : Resolves s p hint k) (hr : s.readReg k = some d) (hh : s.nextHandle = .returns h)
    (hn : ¬ ∃ f t, FrameAt h.reply f t) :
    Transacted s raw hint ((s.afterHandle d h.after).finish (s.resolveCalls p ++ [.handle d p.toRequest, .wait])
      .emptyDevice (.bytes []))
  | reply {p r : ParsedFrame} {t t' : Bytes} {k : Key} {d : DevId} {h : HandleResult} (hf : FrameAt raw p t)
    (hk : Resolves s p hint k) (hr : s.readReg k = some d) (hh : s.nextHandle = .returns h)
    (hreply : FrameAt h.reply r t') :
    Transacted s raw hint ((s.afterHandle d h.after).finish (s.resolveCalls p ++ [.handle d p.toRequest, .wait]) .ok
      (.bytes (encodeFrame p.preambles r.start r.address r.command r.data)))

/-- The next state of an operation that completes. -/
inductive Completes (s : State) : Instr → State → Prop
  | quiet {i : Instr} {st : Status} {res : Result} (hans : QuietAnswer s i st res) (hscan : i ≠ .scan := by simp)
    (hbus : i.busFrame = none := by rfl) : Completes s i (s.finish [] st res)
  | cfgw (fmt : BitVec 1) (n : Int) :
    Completes s (.cfgw fmt n) ((s.writeCfg (cfgWith fmt (clampPreambles n) s.cfg)).finish [] .ok .none)
  | register (a : Int) (d : DevId) :
    Completes s (.register a d) ((s.writeReg (keyOf a) (some d)).finish [] .ok .none)
  | move {o n : Int} {d : DevId} (hr : s.readReg (keyOf o) = some d) : Completes s (.move o n)
      ((((s.writeReg (keyOf o) none).writeReg (keyOf n) (some d)).setPollingAddress d (keyOf n)).finish
        [.setPollingAddress d (keyOf n)] .ok .none)
  | scan : Completes s .scan ((s.writeScanCache s.scanList).finish
      (s.occupied.map (fun e => .summary e.2) ++ [.wait]) .ok (.summaries s.scanList))
  | bus {i : Instr} {raw : Bytes} {hint : Option Int} {t : State} (hbus : i.busFrame = some (raw, hint))
    (ht : Transacted s raw hint t) : Completes s i t

theorem transacted_of_next {raw : Bytes} {hint : Option Int} {s u : State} (h : transact raw hint s = .next u) :
    Transacted s raw hint u := by
  rcases transact_next h with ⟨rfl, hn⟩ | ⟨p, t, hf, -, ⟨rfl, hn⟩ | ⟨k, hk, ⟨rfl, hr⟩ | ⟨d, g, hr, hg, ⟨rfl, hn⟩ |
    ⟨r, t', hq, rfl⟩⟩⟩⟩
  · exact .garbled hn
  · exact .noRoute hf hn
  · exact .miss hf hk hr
  · exact .badReply hf hk hr hg hn
  · exact .reply hf hk hr hg hq

/-- BUILD leaves the state as it is, whatever it answers. -/
theorem build_completes {a c : Int} {data : Bytes} {s t : State} (h : exec (.build a c data) s = .next t) :
    Completes s (.build a c data) t := by
  rcases build_cases a c data s with h1 | ⟨cmd, -, -, ⟨-, h1⟩ | ⟨-, e, -, h1⟩ | ⟨hfmt, hfallback, -, h1⟩⟩ <;>
    cases h.symm.trans h1
  · exact .quiet (.buildRange a c data)
  · exact .quiet (.ok _)
  · exact .quiet (.ok _)
  · exact .quiet (.resolveErr a c data hfmt hfallback)

/-- An operation that answers a next state has completed in one of the cases. -/
theorem exec_completes {i : Instr} {s t : State} (h : exec i s = .next t) : Completes s i t := by
  cases i with
  | csum | preamble | saddr | laddr | cfgr =>
    cases h
    exact .quiet (.ok _)
  | encode p st a c d =>
    rcases encode_cases p st a c d s with ⟨f, -, h1⟩ | ⟨-, h1⟩ <;> cases h.symm.trans h1
    · exact .quiet (.ok _)
    · exact .quiet (.encodeRange p st a c d)
  | decode raw =>
    rcases decode_cases raw s with ⟨f, t', -, h1⟩ | ⟨-, h1⟩ <;> cases h.symm.trans h1
    · exact .quiet (.ok _)
    · exact .quiet (.decodeAbsent raw)
  | decodeRsp raw =>
    rcases decodeRsp_cases raw s with ⟨f, t', -, h1⟩ | ⟨-, h1⟩ <;> cases h.symm.trans h1
    · exact .quiet (.ok _)
    · exact .quiet (.decodeRspAbsent raw)
  | cfgw fmt n =>
    cases h
    exact .cfgw fmt n
  | build a c data => exact build_completes h
  | register a d =>
    cases h
    exact .register a d
  | move o n =>
    rcases move_cases o n s with ⟨d, hr, h1⟩ | ⟨-, h1⟩ <;> cases h.symm.trans h1
    · exact .move hr
    · exact .quiet (.moveEmpty o n)
  | scan =>
    obtain ⟨rfl, -⟩ := scan_next h
    exact .scan
  | reserved0 =>
    cases h
    exact .quiet .reserved0
  | reservedF =>
    cases h
    exact .quiet .reservedF
  | transact | frameShortReq | frameShortRsp | frameLongReq | frameLongRsp =>
    rw [exec_busFrame rfl] at h
    exact .bus rfl (transacted_of_next h)

/-! ### What every operation keeps -/

/-- No operation changes the parameters (R7) or takes an input (R38). -/
theorem exec_keeps_params_inputs {i : Instr} {s t : State} (h : exec i s = .next t) :
    t.params = s.params ∧ t.inputs = s.inputs := by
  cases exec_completes h with
  | bus hbus =>
    rw [exec_busFrame hbus] at h
    obtain ⟨hp, -, hi⟩ := transact_keeps h
    exact ⟨hp, hi⟩
  | _ => exact ⟨rfl, rfl⟩

/-- Every operation keeps the table of devices in canonical form. -/
theorem exec_keeps_devicesSorted {i : Instr} {s t : State} (h : exec i s = .next t) (hs : devicesSorted s.devices) :
    devicesSorted t.devices := by
  cases exec_completes h with
  | quiet | cfgw | register | scan => exact hs
  | move hr => exact insertView_sorted _ _ hs
  | bus hbus ht =>
    cases ht with
    | garbled | noRoute | miss => exact hs
    | badReply | reply =>
      rw [State.finish_devices, State.afterHandle_devices]
      exact insertView_sorted _ _ hs

/-- The block state after an operation: CFGW writes CFG, SCAN the cache, and no operation the lock (R22, R25, R26). -/
theorem exec_blockState {i : Instr} {s t : State} (h : exec i s = .next t) :
    (t.cfg = s.cfg ∨ ∃ fmt n, i = .cfgw fmt n ∧ t.cfg = cfgWith fmt (clampPreambles n) s.cfg) ∧
    (t.scanCache = s.scanCache ∨ i = .scan ∧ t.scanCache = s.scanList) ∧ t.lock = s.lock := by
  cases exec_completes h with
  | cfgw fmt n => exact ⟨.inr ⟨fmt, n, rfl, rfl⟩, .inl rfl, rfl⟩
  | scan => exact ⟨.inl rfl, .inr ⟨rfl, rfl⟩, rfl⟩
  | quiet | register | move => exact ⟨.inl rfl, .inl rfl, rfl⟩
  | bus hbus =>
    rw [exec_busFrame hbus] at h
    obtain ⟨-, ⟨hc, -, hs, hl⟩, -⟩ := transact_keeps h
    exact ⟨.inl hc, .inl hs, hl⟩

end Sys2Proof.Completion

end

section
/-! PROOFS. Steps: the input a step takes, the reset input, and the invariant that every step keeps. -/

namespace Sys2Proof.Steps

open Sys2Proof Sys2Proof.Machine Sys2Proof.Completion

/-! ### One step on each kind of input -/

theorem step_of_decode_ok {s : State} {w : PortWord} {rest : List Input} {i : Instr}
    (hin : s.inputs = .word w :: rest) (hw : decode w = .ok i) : step s = exec i (s.withInputs rest) := by
  simp only [step, hin, hw]

theorem step_of_decode_error {s : State} {w : PortWord} {rest : List Input} {e : DecodeError}
    (hin : s.inputs = .word w :: rest) (hw : decode w = .error e) : step s = rejectWord e (s.withInputs rest) := by
  simp only [step, hin, hw]

/-- Bytes that are no frame fail to decode by the frame grammar. -/
theorem decode_frame_fails {raw : Bytes} (h : ¬ ∃ f t, FrameAt raw f t) (hint : Option Int) :
    ∃ why, decode (.frame raw hint) = .error (.frame why) := by
  cases hp : parseFrameRest raw with
  | ok parsed => exact absurd ⟨parsed.1, parsed.2, parseFrameRest_eq_ok.mp hp⟩ h
  | error why => exact ⟨why, by simp only [decode, hp]⟩

/-- A request fails to decode by its operands alone (R55). -/
theorem decode_request_error {op : BitVec 4} {args : List Arg} {e : DecodeError}
    (h : decode (.request op args) = .error e) : e = .operands op := by
  simp only [decode, decodeRequest] at h
  split at h
  case h_1 | h_16 => cases h
  all_goals
    split at h <;> cases h
    rfl

/-! ### The invariant -/

theorem clampPreambles_legal (n : Int) : 3 ≤ (clampPreambles n).toNat := by
  have := clampPreambles_toNat n
  omega

theorem cfgWith_legal {c : BitVec 8} (h : cfgLegal c) (fmt : BitVec 1) (n : Int) :
    cfgLegal (cfgWith fmt (clampPreambles n) c) := by
  rw [cfgLegal, cfgReserved_cfgWith, cfgPre_cfgWith]
  exact ⟨h.1, clampPreambles_legal n⟩

theorem resetCfg_legal {p : Params} (h : paramsLegal p) : cfgLegal (resetCfg p) := by
  obtain ⟨-, hpre, hres⟩ := resetCfg_fields p
  rw [cfgLegal, hpre, hres]
  exact ⟨rfl, h⟩

/-- The inputs are no part of the invariant. -/
theorem inv_withInputs {s : State} (h : s.Inv) (rest : List Input) : (s.withInputs rest).Inv :=
  ⟨h.params, h.cfg, h.scanCache, h.lock, h.devices⟩

/-- Neither is what stands on the command port. -/
theorem inv_finish {s : State} (h : s.Inv) (acts : List Activity) (st : Status) (res : Result) :
    (s.finish acts st res).Inv :=
  ⟨h.params, h.cfg, h.scanCache, h.lock, h.devices⟩

theorem inv_resetBlock {s : State} (h : s.Inv) : s.resetBlock.Inv :=
  ⟨h.params, resetCfg_legal h.params, .nil, rfl, h.devices⟩

theorem inv_writeView {s : State} (h : s.Inv) (d : DevId) (v : DeviceView) : (s.writeView d v).Inv :=
  ⟨h.params, h.cfg, h.scanCache, h.lock, insertView_sorted d v h.devices⟩

/-- Every operation keeps the invariant: CFGW writes a clamped preamble count, SCAN an ascending list, and device
calls write the table in order. -/
theorem exec_keeps_inv {i : Instr} {s t : State} (hs : s.Inv) (h : exec i s = .next t) : t.Inv := by
  obtain ⟨hcfg, hcache, hlock⟩ := exec_blockState h
  refine ⟨?params, ?cfg, ?cache, hlock.trans hs.lock, exec_keeps_devicesSorted h hs.devices⟩
  case params =>
    rw [(exec_keeps_params_inputs h).1]
    exact hs.params
  case cfg =>
    rcases hcfg with hc | ⟨fmt, n, -, hc⟩ <;> rw [hc]
    · exact hs.cfg
    · exact cfgWith_legal hs.cfg fmt n
  case cache =>
    rcases hcache with hc | ⟨-, hc⟩ <;> rw [hc]
    · exact hs.scanCache
    · exact scanList_ascending s

end Sys2Proof.Steps

open Sys2Proof Sys2Proof.Machine Sys2Proof.Completion Sys2Proof.Steps

/-- Settles O60: an operation, a garbled frame, the reset input and a device's change each keep the invariant. -/
theorem stepKeepsTheInvariant : Obligations.StepKeepsTheInvariant := by
  intro s t hs h
  rcases step_cases h with ⟨-, rfl⟩ | ⟨w, rest, i, -, -, he⟩ | ⟨w, rest, why, -, -, rfl⟩ | ⟨rest, -, rfl⟩ |
    ⟨d, v, rest, -, rfl⟩
  · exact hs
  · exact exec_keeps_inv (inv_withInputs hs rest) he
  · exact inv_finish (inv_withInputs hs rest) _ _ _
  · exact inv_resetBlock (inv_withInputs hs rest)
  · exact inv_writeView (inv_withInputs hs rest) d v

/-- Settles O7: what takes an input leaves the rest in place, and no operation touches the inputs. -/
theorem stepTakesTheOldestInput : Obligations.StepTakesTheOldestInput := by
  intro s t h
  rcases step_cases h with ⟨hin, rfl⟩ | ⟨w, rest, i, hin, -, he⟩ | ⟨w, rest, why, hin, -, rfl⟩ | ⟨rest, hin, rfl⟩ |
    ⟨d, v, rest, hin, rfl⟩
  · rw [hin]
    exact ⟨rfl, rfl⟩
  · obtain ⟨hp, hi⟩ := exec_keeps_params_inputs he
    rw [hin]
    exact ⟨hi, hp⟩
  all_goals
    rw [hin]
    exact ⟨rfl, rfl⟩

/-- Settles O59: the block state takes the values of the parameters and nothing else is written. -/
theorem resetInputRestoresTheBlock : Obligations.ResetInputRestoresTheBlock := by
  intro s rest hin
  obtain ⟨hfmt, hpre, hres⟩ := resetCfg_fields s.params
  refine ⟨(s.withInputs rest).resetBlock, by simp only [step, hin, takeReset], rfl, hfmt, hpre, hres, ?_, ?_⟩
  · simp [State.readReg, emptyReg]
  · intro hp
    rw [State.resetBlock_cfg, State.withInputs_params, hp]
    rfl

/-- Settles O5, by the equation of a step on a word that decodes. -/
theorem stepRunsTheDecodedOperation : Obligations.StepRunsTheDecodedOperation :=
  fun _ _ _ _ hin hw => step_of_decode_ok hin hw

/-- Settles O6: the queue is empty, or its head decodes to no operation, or is a device's change. -/
theorem stepWithoutAnOperation : Obligations.StepWithoutAnOperation := by
  refine ⟨fun s hin => by simp only [step, hin], fun s raw hint rest hin hn => ?garbled,
    fun s op args rest hin hn => ?operands, fun s d v rest hin => ?deviceChange⟩
  case garbled =>
    obtain ⟨why, hw⟩ := decode_frame_fails hn hint
    rw [step_of_decode_error hin hw]
    rfl
  case operands =>
    cases hw : decode (.request op args) with
    | ok i => exact absurd ⟨i, hw⟩ hn
    | error e =>
      rw [step_of_decode_error hin hw, decode_request_error hw]
      rfl
  case deviceChange =>
    refine ⟨(s.withInputs rest).writeView d v, by simp only [step, hin, takeDeviceChange], rfl,
      State.writeView_view_same _ d v, fun c hc => ?_⟩
    rw [State.writeView_view_other _ hc.symm, State.withInputs_view]

/-- Settles O45: the op code alone decides, and the operation writes nothing but its response. -/
theorem reservedOpsAreIllegal : Obligations.ReservedOpsAreIllegal := by
  refine ⟨fun s op args rest hop hin => ?_, fun _ => rfl, fun _ => rfl⟩
  rcases hop with rfl | rfl
  · exact step_of_decode_ok (i := .reserved0) hin rfl
  · exact step_of_decode_ok (i := .reservedF) hin rfl

/-- Settles O58: the reset state is a closed value, and its two lists are empty. -/
theorem resetStateAndInvariant : Obligations.ResetStateAndInvariant :=
  ⟨⟨by decide, by decide, .nil, rfl, .nil⟩, by decide, by decide, rfl, rfl, rfl, rfl⟩

end

section
/-! PROOFS. The request builder: the fields of `CFG` that CFGW writes and CFGR reads, and BUILD in each of its modes
(R78 to R82). -/

namespace Sys2Proof.BuilderAnswers

open Sys2Proof Sys2Proof.Machine

/-! ### The byte CFGR reads (R79) -/

theorem cfgRead_toNat : ∀ c : BitVec 8, (cfgRead c).toNat = 16 * (cfgPre c).toNat + (cfgFmt c).toNat := by decide

theorem cfgReserved_cfgRead : ∀ c : BitVec 8, cfgReserved (cfgRead c) = 0#4 := by decide

/-- A legal CFG reads as itself. -/
theorem cfgRead_of_legal : ∀ c : BitVec 8, cfgLegal c → cfgRead c = c ∧
    c ∈ [0x30#8, 0x31#8, 0x40#8, 0x41#8, 0x50#8, 0x51#8, 0x60#8, 0x61#8, 0x70#8, 0x71#8] := by decide

/-! ### BUILD with its operands in range (R80 to R82) -/

/-- The short address byte as the low byte of a number (R66). -/
theorem shortAddress_eq_ofInt (n : Int) : shortAddress n = BitVec.ofInt 8 (128 + n % 16) := by
  apply BitVec.eq_of_toNat_eq
  have := shortAddress_toNat n
  rw [BitVec.toNat_ofInt]
  omega

/-- The short-mode frame as the rule writes it out. -/
theorem buildShort_eq (s : State) (address : Int) (cmd : Byte) (data : Bytes) : buildShort s address cmd data =
    encodedBytes (cfgPre s.cfg).toNat 0x02#8 [BitVec.ofInt 8 (128 + address % 16)] cmd data := by
  rw [buildShort, encodeFrame_eq, shortAddress_eq_ofInt]

/-- The long-mode frame as the rule writes it out. -/
theorem buildLong_eq (s : State) (e : Summary) (cmd : Byte) (data : Bytes) : buildLong s e cmd data =
    encodedBytes (cfgPre s.cfg).toNat 0x82#8 ((e.uniqueId[0] ||| 0x80#8) :: e.uniqueId.toList.drop 1) cmd data := by
  rw [buildLong, encodeFrame_eq, longAddress_uniqueId]

theorem fmt_ne_zero {c : BitVec 8} (h : cfgFmt c = 1#1) : cfgFmt c ≠ 0#1 := by
  rw [h]
  decide

theorem buildInRange_short {s : State} (h : cfgFmt s.cfg = 0#1) (address : Int) (cmd : Byte) (data : Bytes) :
    buildInRange address cmd data s = .next (s.finish [] .ok (.bytes (buildShort s address cmd data))) :=
  if_pos h

theorem buildInRange_long {s : State} (h : cfgFmt s.cfg = 1#1) {address : Int} {e : Summary}
    (he : s.cachedSummary (keyOf address) = some e) (cmd : Byte) (data : Bytes) :
    buildInRange address cmd data s = .next (s.finish [] .ok (.bytes (buildLong s e cmd data))) := by
  rw [buildInRange, if_neg (fmt_ne_zero h), he]
  rfl

theorem buildInRange_unscanned {s : State} (h : cfgFmt s.cfg = 1#1) {address : Int}
    (he : s.cachedSummary (keyOf address) = none) (cmd : Byte) (data : Bytes) :
    buildInRange address cmd data s = if s.params.buildFallbackShort then
      .next (s.finish [] .ok (.bytes (buildShort s address cmd data))) else .next (s.finish [] .resolveErr .none) := by
  rw [buildInRange, if_neg (fmt_ne_zero h), he]
  rfl

/-- No scanned device stands at the key exactly if the lookup finds none. -/
theorem cachedSummary_keyOf_eq_none {s : State} {address : Int} : s.cachedSummary (keyOf address) = none ↔
    ∀ e ∈ s.scanCache, (e.address.val : Int) ≠ address % 16 := by
  rw [State.cachedSummary, List.find?_eq_none]
  simp only [decide_eq_true_iff, ne_eq, ← keyOf_eq_iff, eq_comm (a := keyOf address)]

/-- The device that the lookup finds is in the cache, at the key. -/
theorem mem_of_cachedSummary_keyOf {s : State} {address : Int} {e : Summary}
    (h : s.cachedSummary (keyOf address) = some e) :
    e ∈ s.scanCache ∧ (e.address.val : Int) = address % 16 := by
  have hkey : e.address = keyOf address := by simpa using List.find?_some h
  exact ⟨List.mem_of_find?_eq_some h, keyOf_eq_iff.mp hkey.symm⟩

theorem exec_build_outOfRange {address command : Int} {data : Bytes}
    (h : command < 0 ∨ 255 < command ∨ 255 < data.length) (s : State) :
    exec (.build address command data) s = .next (s.finish [] .argRange .none) := by
  rcases build_cases address command data s with he | ⟨cmd, hcmd, hd, -⟩
  · exact he
  · have := cmd.isLt
    omega

/-! ### The frames BUILD emits -/

/-- The short-mode frame decodes to the fields asked for (R80). -/
theorem buildShort_frameAt (s : State) (address : Int) (cmd : Byte) {data : Bytes} (hd : data.length ≤ 255) :
    ∃ f, FrameAt (buildShort s address cmd data) f [] ∧ f.preambles = (cfgPre s.cfg).toNat ∧ f.start = 0x02#8 ∧
      f.address = [shortAddress address] ∧ f.command = cmd ∧ f.data = data ∧ f.csumOk = true := by
  have hf := encodeFrame_frameAt (st := 0x02#8) (address := [shortAddress address]) (.inl ⟨rfl, rfl⟩) hd
    (cfgPre s.cfg).toNat cmd []
  rw [List.append_nil] at hf
  exact ⟨_, hf, rfl, rfl, rfl, rfl, rfl, rfl⟩

/-- The long-mode frame decodes to the fields asked for (R80, R81). -/
theorem buildLong_frameAt (s : State) (e : Summary) (cmd : Byte) {data : Bytes} (hd : data.length ≤ 255) :
    ∃ f, FrameAt (buildLong s e cmd data) f [] ∧ f.preambles = (cfgPre s.cfg).toNat ∧ f.start = 0x82#8 ∧
      f.address = (e.uniqueId[0] ||| 0x80#8) :: e.uniqueId.toList.drop 1 ∧ f.command = cmd ∧ f.data = data ∧
      f.csumOk = true := by
  have hlen : (longAddress e.uniqueId.toList).length = 5 := by
    rw [longAddress_uniqueId, List.length_cons, List.length_drop, Vector.length_toList]
  have hf := encodeFrame_frameAt (st := 0x82#8) (.inr (.inr (.inl ⟨rfl, hlen⟩))) hd (cfgPre s.cfg).toNat cmd []
  rw [List.append_nil] at hf
  exact ⟨_, hf, rfl, rfl, longAddress_uniqueId _, rfl, rfl, rfl⟩

end Sys2Proof.BuilderAnswers

open Sys2Proof Sys2Proof.Machine Sys2Proof.WireBits Sys2Proof.BuilderAnswers

/-- Settles O20: CFGW joins the two fields to the reserved bits as they stand. -/
theorem configWriteClampsThePreambles : Obligations.ConfigWriteClampsThePreambles := by
  intro fmt n s
  refine ⟨cfgWith fmt (clampPreambles n) s.cfg, rfl, cfgFmt_cfgWith .., ?_, cfgReserved_cfgWith ..⟩
  rw [cfgPre_cfgWith, clampPreambles_toNat]

/-- Settles O21: the fields do not overlap, and nothing else is read. -/
theorem configReadGivesBothFields : Obligations.ConfigReadGivesBothFields := by
  refine fun s => ⟨cfgRead s.cfg, rfl, cfgRead_toNat _, cfgReserved_cfgRead _, fun hlegal => ?_⟩
  obtain ⟨heq, hmem⟩ := cfgRead_of_legal s.cfg hlegal
  rw [heq]
  exact ⟨rfl, hmem⟩

/-- Settles O22: in short mode the address is not resolved. -/
theorem buildInShortMode : Obligations.BuildInShortMode := by
  intro address cmd data s hd hfmt
  rw [execBuild_inRange _ _ hd, buildInRange_short hfmt, buildShort_eq]
  rfl

/-- Settles O23: in an ascending cache the entry at the key is the one that the lookup finds. -/
theorem buildInLongMode : Obligations.BuildInLongMode := by
  intro address cmd data s e hd hfmt hasc he hkey
  have hfound : s.cachedSummary (keyOf address) = some e := by
    rw [keyOf_eq_iff.mpr hkey, cachedSummary_eq_some hasc he]
  rw [execBuild_inRange _ _ hd, buildInRange_long hfmt hfound, buildLong_eq]
  rfl

/-- Settles O24: the lookup finds nothing, and the parameter decides. -/
theorem buildWithoutAScannedDevice : Obligations.BuildWithoutAScannedDevice := by
  intro address cmd data s hd hfmt hnone
  rw [execBuild_inRange _ _ hd, buildInRange_unscanned hfmt (cachedSummary_keyOf_eq_none.mpr hnone), buildShort_eq]
  exact ⟨fun hfallback => by rw [hfallback]; rfl, fun hfallback => by rw [hfallback]; rfl⟩

/-- Settles O25: no byte stands for the command, or the data does not fit, whatever the address is. -/
theorem buildChecksRangesFirst : Obligations.BuildChecksRangesFirst := fun _ _ _ s h => exec_build_outOfRange h s

/-- Settles O26: BUILD answers OK with a short-mode or a long-mode frame, each of which decodes to its fields. -/
theorem builtFramesDecodeBack : Obligations.BuiltFramesDecodeBack := by
  intro address command data frame s t hlegal h hr
  have hpre := (cfgPre s.cfg).isLt
  rcases build_cases address command data s with h1 | ⟨cmd, rfl, hd, ⟨hmode, h1⟩ | ⟨hfmt, e, he, h1⟩ |
      ⟨-, -, -, h1⟩⟩ <;> cases h.symm.trans h1 <;> cases hr
  · obtain ⟨f, hf, hp, hst, ha, hcmd, hdata, hok⟩ := buildShort_frameAt s address cmd hd
    refine ⟨f, hf, hp, hp ▸ hlegal.2, by omega, .inl ⟨hst, by rw [ha, shortAddress_eq_ofInt], ?_⟩,
      ⟨_, _, ha, shortAddress_masterFlag address⟩, by rw [hcmd], hdata, hok⟩
    exact hmode.imp_right fun ⟨hfallback, hnone⟩ => ⟨hfallback, cachedSummary_keyOf_eq_none.mp hnone⟩
  · obtain ⟨f, hf, hp, hst, ha, hcmd, hdata, hok⟩ := buildLong_frameAt s e cmd hd
    obtain ⟨hmem, hkey⟩ := mem_of_cachedSummary_keyOf he
    exact ⟨f, hf, hp, hp ▸ hlegal.2, by omega, .inr ⟨hst, hfmt, e, hmem, hkey, ha⟩,
      ⟨_, _, ha, or_masterFlag _⟩, by rw [hcmd], hdata, hok⟩

end

section
/-! PROOFS. The registry's own operations: REGISTER, MOVE and SCAN (R83 to R85). -/

namespace Sys2Proof.RegistryOperations

open Sys2Proof Sys2Proof.Machine

/-- The registry after MOVE's two writes (R84). -/
theorem readReg_after_move (s : State) (ko kn k : Key) (d : DevId) :
    ((s.writeReg ko none).writeReg kn (some d)).readReg k =
      if k = kn then some d else if k = ko then none else s.readReg k := by
  rw [State.writeReg_readReg, State.writeReg_readReg]
  simp only [eq_comm (b := k)]

/-- Each scan record stands for one `summary` call (R85). -/
theorem summary_calls_of_scanList (s : State) :
    (s.scanList.filterMap fun e => (s.readReg e.address).map Activity.summary) =
      s.occupied.map fun e => .summary e.2 := by
  rw [State.scanList, List.filterMap_map, ← List.filterMap_eq_map]
  refine List.filterMap_congr fun e he => ?_
  have hreg : s.readReg e.1 = some e.2 := mem_occupied.mp he
  simp only [Function.comp_apply, State.summaryAt, hreg, Option.map_some]

/-- A record is the one of a slot exactly if its fields are what the slot's device shows. -/
theorem eq_summaryAt_iff {s : State} {e : Summary} {d : DevId} : e = s.summaryAt e.address d ↔
    e.uniqueId = (s.view d).uniqueId ∧ e.serialHex = (s.view d).serialHex ∧ e.model = (s.view d).model ∧
      e.manufacturer = (s.view d).manufacturer := by
  cases e
  simp only [State.summaryAt, Summary.mk.injEq, true_and]

end Sys2Proof.RegistryOperations

open Sys2Proof Sys2Proof.Machine Sys2Proof.RegistryOperations

/-- Settles O27: REGISTER is one write to the registry. -/
theorem registerBindsOneSlot : Obligations.RegisterBindsOneSlot := by
  intro address d s
  refine ⟨(s.writeReg (keyOf address) (some d)).finish [] .ok .none, rfl, rfl, fun k => ?_⟩
  rw [State.finish_readReg, State.writeReg_readReg]
  simp only [keyOf_eq_iff]

/-- Settles O28: MOVE writes the old slot, then the new one, then the device's own polling address. -/
theorem moveRekeysTheDevice : Obligations.MoveRekeysTheDevice := by
  intro old new s ko kn d ho hn hr
  obtain rfl := keyOf_eq_iff.mpr ho
  obtain rfl := keyOf_eq_iff.mpr hn
  rcases move_cases old new s with ⟨d', hr', h⟩ | ⟨hr', -⟩ <;> cases hr.symm.trans hr'
  refine ⟨_, h, rfl, fun k => readReg_after_move s _ _ k d, ?_, fun c hc => ?_⟩
  · exact State.setPollingAddress_view_same _ d _
  · exact State.setPollingAddress_view_other _ hc.symm _

/-- Settles O29: with the old slot empty MOVE has the other of its two cases. -/
theorem moveFromAnEmptyKey : Obligations.MoveFromAnEmptyKey := by
  intro old new s ko ho hr
  obtain rfl := keyOf_eq_iff.mpr ho
  rcases move_cases old new s with ⟨d, hr', -⟩ | ⟨-, h⟩
  · cases hr.symm.trans hr'
  · exact h

/-- Settles O30: SCAN's list is the occupied slots in order, with what each device shows. -/
theorem scanListsTheRegistry : Obligations.ScanListsTheRegistry := by
  intro s hreturn
  refine ⟨s.scanList, ?_, scanList_ascending s, fun e => ?_⟩
  · rcases scan_cases s with ⟨-, h⟩ | ⟨k, d, hk, hv, -⟩
    · rw [summary_calls_of_scanList]
      exact h
    · exact absurd (hreturn k d hk) (by simp [hv])
  · simp only [mem_scanList, eq_summaryAt_iff]

end

section
/-! PROOFS. Transactions: what each kind of frame resolves to, and what the bus answers on each path (R86 to R94). -/

namespace Sys2Proof.Transactions

open Sys2Proof Sys2Proof.Machine Sys2Proof.WireBits

/-! ### Resolution -/

/-- Under HINT a long frame goes to the hint's key, if there is one (R87). -/
theorem resolveKey_hint {s : State} {p : ParsedFrame} (hw : hasWidth p.start p.address.length)
    (h5 : p.address.length = 5) (hr : s.params.longRoute = .hint) (hint : Option Int) :
    s.resolveKey p hint = hint.map keyOf := by
  rw [State.resolveKey, if_neg (isShortStart_of_long hw h5), hr]

/-- Under HINT a long frame is resolved without a `summary` call (R87, R96). -/
theorem askedDevices_hint {s : State} {p : ParsedFrame} (hw : hasWidth p.start p.address.length)
    (h5 : p.address.length = 5) (hr : s.params.longRoute = .hint) : s.askedDevices p = [] := by
  rw [State.askedDevices, if_neg (isShortStart_of_long hw h5), hr]

/-- The hint has no part in the key of a short frame, or of any frame under DIRECTORY (R86, R88). -/
theorem resolveKey_eq_of_hint_unused {s : State} {p : ParsedFrame} (hw : hasWidth p.start p.address.length)
    (h : s.params.longRoute = .directory ∨ p.address.length = 1) (h1 h2 : Option Int) :
    s.resolveKey p h1 = s.resolveKey p h2 := by
  rcases hasWidth_one_or_five hw with hlen | hlen
  · obtain ⟨a, ha⟩ := List.length_eq_one_iff.mp hlen
    rw [resolveKey_short hw ha, resolveKey_short hw ha]
  · have hdir : s.params.longRoute = .directory := h.resolve_right (by omega)
    rw [resolveKey_directory hw hlen hdir, resolveKey_directory hw hlen hdir]

/-- The hint enters a transaction through the key alone. -/
theorem transact_congr_hint {raw : Bytes} {h1 h2 : Option Int} {s : State}
    (h : ∀ p t, FrameAt raw p t → s.resolveKey p h1 = s.resolveKey p h2) : transact raw h1 s = transact raw h2 s := by
  unfold transact
  cases hp : parseFrame raw with
  | error why => rfl
  | ok p =>
    obtain ⟨t, hf⟩ := parseFrame_eq_ok.mp hp
    simp only [route, h p t hf]

/-- A short frame resolves to a key (R86). -/
theorem resolves_of_short {p : ParsedFrame} (h : p.address.length = 1) (s : State) (hint : Option Int) :
    ∃ k, Resolves s p hint k := by
  obtain ⟨a, ha⟩ := List.length_eq_one_iff.mp h
  exact ⟨keyOfByte a, .inl ⟨a, ha, keyOfByte_val a⟩⟩

/-- Under HINT a long frame with a hint resolves to a key (R87). -/
theorem resolves_of_hint {s : State} {p : ParsedFrame} (h5 : p.address.length = 5) (hr : s.params.longRoute = .hint)
    (n : Int) : Resolves s p (some n) (keyOf n) :=
  .inr (.inl ⟨h5, hr, n, rfl, keyOf_val n⟩)

/-- A key that the directory gives has a device (R88). -/
theorem short_or_hint_of_emptySlot {s : State} {p : ParsedFrame} {hint : Option Int} {k : Key}
    (hk : Resolves s p hint k) (hr : s.readReg k = none) : p.address.length = 1 ∨ s.params.longRoute = .hint := by
  rcases hk with ⟨b, hb, -⟩ | ⟨-, hroute, -⟩ | ⟨-, -, ⟨d, hd, -⟩, -⟩
  · rw [hb]
    exact .inl rfl
  · exact .inr hroute
  · cases hr.symm.trans hd

/-- A short frame, and any frame under HINT, is no directory lookup. -/
theorem no_directory_lookup {s : State} {p : ParsedFrame} (h : p.address.length = 1 ∨ s.params.longRoute = .hint) :
    ¬ (p.address.length = 5 ∧ s.params.longRoute = .directory) := by
  rintro ⟨h5, hdir⟩
  rcases h with h1 | hh
  · omega
  · cases hdir.symm.trans hh

/-- Routing away from the directory turns on the parameters alone. -/
theorem resolves_congr {s u : State} {q : ParsedFrame} (hp : u.params = s.params)
    (h : s.params.longRoute = .hint ∨ q.address.length = 1) (hint : Option Int) (k : Key) :
    Resolves u q hint k ↔ Resolves s q hint k := by
  simp only [Resolves, hp]
  rcases h with h | h <;> simp [h]

/-! ### The calls of a resolution -/

/-- A resolution makes `summary` calls only, and only under DIRECTORY (R88, R96). -/
theorem mem_resolveCalls {s : State} {p : ParsedFrame} (hw : hasWidth p.start p.address.length) {a : Activity}
    (h : a ∈ s.resolveCalls p) : (∃ d, a = .summary d) ∧ s.params.longRoute = .directory := by
  obtain ⟨d, hd, rfl⟩ := List.mem_map.mp h
  obtain ⟨-, hdir, -⟩ := (mem_askedDevices hw).mp hd
  exact ⟨⟨d, rfl⟩, hdir⟩

/-- The `summary` calls in the record of a transaction are those of its resolution. -/
theorem filter_resolveCalls {f : Activity → Bool} (hf : ∀ d, f (.summary d) = true) {s : State} {p : ParsedFrame}
    {rest : List Activity} (hrest : ∀ a ∈ rest, f a = false) :
    (s.resolveCalls p ++ rest).filter f = s.resolveCalls p := by
  have hcalls : ∀ a ∈ s.resolveCalls p, f a = true := fun a ha => by
    obtain ⟨d, -, rfl⟩ := List.mem_map.mp ha
    exact hf d
  rw [List.filter_append, List.filter_eq_self.mpr hcalls, List.filter_eq_nil_iff.mpr fun a ha => by simp [hrest a ha],
    List.append_nil]

/-- Under DIRECTORY a resolution that finds a key asks the occupied slots up to it (R88). -/
theorem resolutionCalls_directory {s : State} {p : ParsedFrame} (h5 : p.address.length = 5)
    (hr : s.params.longRoute = .directory) (k : Key) : resolutionCalls s p (some k) =
      ((List.finRange 16).filter (· ≤ k)).filterMap fun j => (s.readReg j).map Activity.summary := by
  rw [resolutionCalls, if_pos ⟨h5, hr⟩]
  rfl

/-! ### The paths of a transaction -/

theorem transact_of_no_frame {raw : Bytes} (h : ¬ ∃ f t, FrameAt raw f t) (hint : Option Int) (s : State) :
    transact raw hint s = .next (s.finish [] .emptyGarbled (.bytes [])) := by
  obtain ⟨why, hp⟩ := parseFrame_fails h
  rw [transact, hp]
  rfl

theorem transact_of_no_key {raw t : Bytes} {p : ParsedFrame} {hint : Option Int} {s : State} (hf : FrameAt raw p t)
    (ha : AskedReturn s p) (hn : ∀ k, ¬ Resolves s p hint k) : transact raw hint s =
      .next (s.finish (resolutionCalls s p none ++ [.wait]) .emptyNoRoute (.bytes [])) := by
  have hkey : s.resolveKey p hint = none := (resolveKey_eq_none hf.width).mpr hn
  rw [transact_eq_deliver hf ha, hkey, deliver, resolveCalls_eq hf.width hint, hkey]
  rfl

theorem transact_of_emptySlot {raw t : Bytes} {p : ParsedFrame} {hint : Option Int} {s : State} {k : Key}
    (hf : FrameAt raw p t) (hk : Resolves s p hint k) (hr : s.readReg k = none) :
    transact raw hint s = .next (s.finish [.wait] .emptyMiss (.bytes [])) := by
  have hno := no_directory_lookup (short_or_hint_of_emptySlot hk hr)
  have ha : AskedReturn s p := fun d ⟨h5, hdir, _⟩ => absurd ⟨h5, hdir⟩ hno
  have hkey : s.resolveKey p hint = some k := (resolveKey_eq_some hf.width).mpr hk
  rw [transact_eq_deliver hf ha, hkey]
  simp only [deliver, hr]
  rw [resolveCalls_eq hf.width hint, resolutionCalls, if_neg hno]
  rfl

/-- A frame that reaches a device is the transaction with that device. -/
theorem transact_of_device {raw t : Bytes} {p : ParsedFrame} {hint : Option Int} {s : State} {k : Key} {d : DevId}
    (hf : FrameAt raw p t) (ha : AskedReturn s p) (hk : Resolves s p hint k) (hr : s.readReg k = some d) :
    transact raw hint s = transactWith (resolutionCalls s p (some k)) d p s := by
  have hkey : s.resolveKey p hint = some k := (resolveKey_eq_some hf.width).mpr hk
  rw [transact_eq_deliver hf ha, hkey]
  simp only [deliver, hr]
  rw [resolveCalls_eq hf.width hint, hkey]

theorem transactWith_of_reply {calls : List Activity} {d : DevId} {p r : ParsedFrame} {s : State} {h : HandleResult}
    {t : Bytes} (hh : s.nextHandle = .returns h) (hr : FrameAt h.reply r t) : transactWith calls d p s =
      .next ((s.afterHandle d h.after).finish (calls ++ [.handle d p.toRequest, .wait]) .ok
        (.bytes (encodeFrame p.preambles r.start r.address r.command r.data))) := by
  simp only [transactWith, hh, reframe, parseFrame_eq_ok.mpr ⟨t, hr⟩, complete]

theorem transactWith_of_badReply {calls : List Activity} {d : DevId} {p : ParsedFrame} {s : State} {h : HandleResult}
    (hh : s.nextHandle = .returns h) (hn : ¬ ∃ r t, FrameAt h.reply r t) : transactWith calls d p s =
      .next ((s.afterHandle d h.after).finish (calls ++ [.handle d p.toRequest, .wait]) .emptyDevice (.bytes [])) := by
  obtain ⟨why, hp⟩ := parseFrame_fails hn
  simp only [transactWith, hh, reframe, hp, complete]

/-! ### The handle results -/

theorem dropHandleResult_eq (s : State) : s.dropHandleResult = { s with
    handleResults := s.handleResults.tail, draws := if s.handleResults = [] then s.draws + 1 else s.draws } := by
  cases s with
  | mk _ _ _ _ _ _ _ results => cases results <;> simp [State.dropHandleResult]

/-- What is left of the state by a `handle` call and the response after it. -/
theorem finish_afterHandle_eq (s : State) (d : DevId) (v : DeviceView) (acts : List Activity) (st : Status)
    (res : Result) : (s.afterHandle d v).finish acts st res = { s with
      devices := insertView d v s.devices, handleResults := s.handleResults.tail
      draws := if s.handleResults = [] then s.draws + 1 else s.draws
      response := some ⟨st, res⟩, activity := acts } := by
  rw [State.afterHandle, dropHandleResult_eq]
  rfl

/-! ### Re-framed replies -/

/-- The re-framed reply is a frame again, with the reply's fields and a good checksum (R89, R90). -/
theorem reframed_frameAt {reply t : Bytes} {r : ParsedFrame} (h : FrameAt reply r t) (n : Nat) :
    ∃ f, FrameAt (encodeFrame n r.start r.address r.command r.data) f [] ∧ f.preambles = n ∧ f.start = r.start ∧
      f.address = r.address ∧ f.command = r.command ∧ f.data = r.data ∧ f.csumOk = true := by
  have hdata : r.data.length ≤ 255 := by
    have := r.byteCount.isLt
    have := h.dataLength
    omega
  have hf := encodeFrame_frameAt h.width hdata n r.command []
  rw [List.append_nil] at hf
  exact ⟨_, hf, rfl, rfl, rfl, rfl, rfl, rfl⟩

end Sys2Proof.Transactions

open Sys2Proof Sys2Proof.Machine Sys2Proof.ChecksumFlag Sys2Proof.CodecAnswers Sys2Proof.Completion
open Sys2Proof.Transactions

/-- Settles O31: the parser fails before anything is routed. -/
theorem garbledFramesAreDropped : Obligations.GarbledFramesAreDropped :=
  fun _ hint s hn => transact_of_no_frame hn hint s

/-- Settles O32: a short frame always has a key, and so has a long frame with a hint under HINT. -/
theorem unroutedFramesGetNoRoute : Obligations.UnroutedFramesGetNoRoute := by
  intro i raw hint s p t hbus hf ha hn
  have hlong : p.address.length = 5 := (hasWidth_one_or_five hf.width).resolve_left fun h1 => by
    obtain ⟨k, hk⟩ := resolves_of_short h1 s hint
    exact hn k hk
  refine ⟨hlong, fun hroute => ?_, ?_⟩
  · cases hint with
    | none => rfl
    | some n => exact absurd (resolves_of_hint hlong hroute n) (hn _)
  · rw [exec_busFrame hbus]
    exact transact_of_no_key hf ha hn

/-- Settles O33: a key with an empty slot is not one that the directory gave, so no device was asked. -/
theorem framesToAnEmptySlotMiss : Obligations.FramesToAnEmptySlotMiss := by
  intro i raw hint s p t k hbus hf hk hr
  refine ⟨short_or_hint_of_emptySlot hk hr, ?_⟩
  rw [exec_busFrame hbus]
  exact transact_of_emptySlot hf hk hr

/-- Settles O34: the reply of the one `handle` call is a frame or it is none. -/
theorem routedFramesReachOneDevice : Obligations.RoutedFramesReachOneDevice := by
  intro i raw hint s p t k d h hbus hf ha hk hr hh
  rw [exec_busFrame hbus, transact_of_device hf ha hk hr]
  have hviews (acts : List Activity) (st : Status) (res : Result) :
      (((s.afterHandle d h.after).finish acts st res).view d = h.after ∧
        ∀ c, c ≠ d → ((s.afterHandle d h.after).finish acts st res).view c = s.view c) :=
    ⟨State.afterHandle_view_same s d _, fun c hc => State.afterHandle_view_other s hc.symm _⟩
  by_cases hreply : ∃ r t', FrameAt h.reply r t'
  · obtain ⟨r, t', hq⟩ := hreply
    refine ⟨_, .ok, encodeFrame p.preambles r.start r.address r.command r.data, transactWith_of_reply hh hq, ?_,
      hviews _ _ _, fun r' t'' hq' => ?_, fun hn => absurd ⟨r, t', hq⟩ hn⟩
    · rw [finish_afterHandle_eq]
      rfl
    · obtain ⟨rfl, -⟩ := hq.unique hq'
      exact ⟨rfl, encodeFrame_eq ..⟩
  · refine ⟨_, .emptyDevice, [], transactWith_of_badReply hh hreply, ?_, hviews _ _ _,
      fun r t' hq => absurd ⟨r, t', hq⟩ hreply, fun _ => ⟨rfl, rfl⟩⟩
    rw [finish_afterHandle_eq]
    rfl

/-- Settles O35: a call takes the head of the supplied outcomes, or draws a free value when there is none. -/
theorem handleResultsAreTakenInOrder : Obligations.HandleResultsAreTakenInOrder := by
  refine ⟨fun s h rest hs => ⟨by rw [State.nextHandle, hs], fun d v => ?_⟩,
    fun s hs => ⟨by rw [State.nextHandle, hs], fun d v => ?_⟩⟩
  all_goals
    rw [State.afterHandle_handleResults, State.afterHandle_draws, dropHandleResult_eq, hs]
    exact ⟨rfl, rfl⟩

/-- Settles O36: under HINT the key is the hint's, and no device is asked. -/
theorem hintRoutingIgnoresTheAddress : Obligations.HintRoutingIgnoresTheAddress := by
  intro s p q raw raw' t t' hint hp hq hp5 hq5 hr
  refine transact_sameRoute hp hq ?_ ?_
  · rw [resolveKey_hint hp.width hp5 hr, resolveKey_hint hq.width hq5 hr]
  · rw [askedDevices_hint hp.width hp5 hr, askedDevices_hint hq.width hq5 hr]

/-- Settles O37: the key is the same for every hint. -/
theorem hintIsIgnoredWhereAnotherKeyDecides : Obligations.HintIsIgnoredWhereAnotherKeyDecides := by
  intro raw h1 h2 s hunused
  refine transact_congr_hint fun p t hf => resolveKey_eq_of_hint_unused hf.width (hunused.imp_right ?_) h1 h2
  rintro ⟨q, t', hq, hlen⟩
  rwa [(hf.unique hq).1]

/-- Settles O38: what a transaction records before its `handle` call or its wait is the calls of its resolution. -/
theorem directoryAsksUpToTheFirstMatch : Obligations.DirectoryAsksUpToTheFirstMatch := by
  intro raw hint s u p t k hf h5 hr hk h
  have hkey : s.resolveKey p hint = some k := (resolveKey_eq_some hf.width).mpr hk
  rw [← resolutionCalls_directory h5 hr, ← hkey, ← resolveCalls_eq hf.width]
  cases transacted_of_next h with
  | garbled hn => exact absurd ⟨p, t, hf⟩ hn
  | noRoute hf' | miss hf' | badReply hf' | reply hf' =>
    obtain ⟨rfl, -⟩ := hf.unique hf'
    exact filter_resolveCalls (fun _ => rfl) (by simp)

/-- Settles O39: the two frames parse to the same request. -/
theorem transactIgnoresTheChecksum : Obligations.TransactIgnoresTheChecksum := by
  intro s f rx start hint hst hd
  rw [← wireBytes_eq, ← wireBytes_eq]
  have hframe (csum : Byte) := layoutFrame_frameAt hst hd f.preambles f.command csum f.trailing
  exact transact_congr (hframe rx) (hframe f.checksum) rfl hint s

/-- Settles O40: with more bytes after it a frame is the same frame. -/
theorem trailingBytesAreIgnored : Obligations.TrailingBytesAreIgnored := by
  rintro raw more hint s ⟨f, t, hf⟩
  have hmore := hf.append more
  exact ⟨by rw [exec_decode_of_frameAt hf, exec_decode_of_frameAt hmore],
    by rw [exec_decodeRsp_of_frameAt hf, exec_decodeRsp_of_frameAt hmore], transact_congr hmore hf rfl hint s⟩

/-- Settles O41: only a transaction with a reply that is a frame ends OK, and what it returns is the reply
re-framed. -/
theorem responsesKeepTheRequestFraming : Obligations.ResponsesKeepTheRequestFraming := by
  intro raw out hint s u h hr
  cases transacted_of_next h with
  | garbled | noRoute | miss | badReply => cases hr
  | reply hf hk hd hh hq =>
    cases hr
    obtain ⟨f, hframe, hfields⟩ := reframed_frameAt hq _
    exact ⟨_, _, _, _, _, f, hf, hh, hq, hframe, hfields⟩

/-- Settles O42: the re-framed reply decodes to the reply's fields, and its data splits where the reply's does. -/
theorem conformingRepliesComeBackWhole : Obligations.ConformingRepliesComeBackWhole := by
  rintro raw hint s v p t k d h hf ha hk hr hh ⟨r, t', hq, hlen⟩
  obtain ⟨s1, s2, payload, hdata⟩ : ∃ s1 s2 payload, r.data = s1 :: s2 :: payload := by
    match hd : r.data, hlen with
    | s1 :: s2 :: payload, _ => exact ⟨s1, s2, payload, rfl⟩
  obtain ⟨f, hframe, hpre, hst, haddr, hcmd, hfdata, hok⟩ := reframed_frameAt hq p.preambles
  have hexec := (transact_of_device hf ha hk hr).trans (transactWith_of_reply hh hq)
  refine ⟨_, _, f, r, t', s1, s2, payload, hexec, rfl, hq, hdata, ?_, hpre, hst, haddr, hcmd, hfdata, hok⟩
  rw [exec_decodeRsp_of_frameAt hframe, splitResponse_cons_cons (hfdata.trans hdata)]
  rfl

/-- Settles O43: a transaction leaves the parameters and the registry as they were. -/
theorem transactionsDoNotRekey : Obligations.TransactionsDoNotRekey := by
  intro i raw hint hint' s u q raw' t' k hbus h hq hroute
  rw [exec_busFrame hbus] at h
  obtain ⟨hp, ⟨-, hreg, -⟩, -⟩ := transact_keeps h
  exact ⟨resolves_congr hp hroute hint' k, by rw [State.readReg, State.readReg, hreg]⟩

end

section
/-! PROOFS. When an operation completes, and where the block is stuck otherwise (R118, U6). -/

namespace Sys2Proof.DeviceCalls

open Sys2Proof Sys2Proof.Machine Sys2Proof.Transactions

/-! ### Which calls an operation makes -/

/-- Every device call of the transaction of these bytes returns. -/
def TransactionReturns (raw : Bytes) (hint : Option Int) (s : State) : Prop :=
  ∀ p t, FrameAt raw p t → AskedReturn s p ∧
    ∀ k d, Resolves s p hint k → s.readReg k = some d → ∃ r, s.nextHandle = .returns r

theorem callsReturn_scan {s : State} (h : ∀ k d, s.readReg k = some d → (s.view d).summaryReturns = true) :
    DeviceCallsReturn .scan s :=
  ⟨fun _ => h, fun _ _ _ _ hbus => by cases hbus⟩

/-- Only SCAN and the transactions call a device that may not return. -/
theorem callsReturn_of_no_call {i : Instr} (hscan : i ≠ .scan) (hbus : i.busFrame = none) (s : State) :
    DeviceCallsReturn i s :=
  ⟨fun hi => absurd hi hscan, fun _ _ _ _ hframe => by cases hbus.symm.trans hframe⟩

/-- The calls of an operation that puts a frame on the bus are those of that frame's transaction. -/
theorem callsReturn_of_busFrame {i : Instr} {raw : Bytes} {hint : Option Int} {s : State}
    (hbus : i.busFrame = some (raw, hint)) (h : TransactionReturns raw hint s) : DeviceCallsReturn i s := by
  refine ⟨fun hi => ?_, fun raw' hint' p t hframe hf => ?_⟩
  · subst hi
    cases hbus
  · cases hbus.symm.trans hframe
    exact h p t hf

/-! ### Completion -/

/-- An operation that calls no device but by `set_polling_address` completes. -/
theorem exec_of_no_call {i : Instr} (hscan : i ≠ .scan) (hbus : i.busFrame = none) (s : State) :
    ∃ t r, exec i s = .next t ∧ t.response = some r := by
  by_cases hreg : ∃ a d, i = .register a d
  · obtain ⟨a, d, rfl⟩ := hreg
    exact ⟨_, _, rfl, rfl⟩
  by_cases hmove : ∃ o n, i = .move o n
  · obtain ⟨o, n, rfl⟩ := hmove
    rcases move_cases o n s with ⟨d, -, h⟩ | ⟨-, h⟩ <;> exact ⟨_, _, h, rfl⟩
  obtain ⟨c, st, res, h⟩ := RegistryAccess.exec_answer (fun a d hi => hreg ⟨a, d, hi⟩)
    (fun o n hi => hmove ⟨o, n, hi⟩) hscan hbus s
  exact ⟨_, _, h s.reg, rfl⟩

/-- A transaction whose calls return completes. -/
theorem transact_completes {raw : Bytes} {hint : Option Int} {s : State} (h : TransactionReturns raw hint s) :
    ∃ t r, transact raw hint s = .next t ∧ t.response = some r := by
  rcases transact_cases raw hint s with ⟨he, -⟩ | ⟨p, t, hf, hcases⟩
  · exact ⟨_, _, he, rfl⟩
  obtain ⟨hasked, hhandle⟩ := h p t hf
  rcases hcases with ⟨d, -, hd, hv⟩ | ⟨-, ⟨he, -⟩ | ⟨k, hk, ⟨he, -⟩ | ⟨d, hr, ⟨-, hnever⟩ | ⟨g, -, ⟨he, -⟩ |
    ⟨r, t', -, he⟩⟩⟩⟩⟩
  · exact absurd (hasked d hd) (by simp [hv])
  · exact ⟨_, _, he, rfl⟩
  · exact ⟨_, _, he, rfl⟩
  · obtain ⟨r, hret⟩ := hhandle k d hk hr
    cases hnever.symm.trans hret
  · exact ⟨_, _, he, rfl⟩
  · exact ⟨_, _, he, rfl⟩

/-- An operation whose device calls return completes. -/
theorem exec_of_calls_return {i : Instr} {s : State} (h : DeviceCallsReturn i s) :
    ∃ t r, exec i s = .next t ∧ t.response = some r := by
  obtain ⟨hscan, hframe⟩ := h
  by_cases hi : i = .scan
  · subst hi
    rcases scan_cases s with ⟨-, he⟩ | ⟨k, d, hk, hv, -⟩
    · exact ⟨_, _, he, rfl⟩
    · exact absurd (hscan rfl k d hk) (by simp [hv])
  cases hbus : i.busFrame with
  | none => exact exec_of_no_call hi hbus s
  | some frame =>
    rw [exec_busFrame hbus]
    exact transact_completes fun p t hf => hframe _ _ p t hbus hf

/-! ### The stuck block -/

/-- A transaction with a call that never returns is stuck in a `summary` call, or in the `handle` call. -/
theorem transact_stuck {raw : Bytes} {hint : Option Int} {s : State} (h : ¬ TransactionReturns raw hint s) :
    ∃ p t, FrameAt raw p t ∧
      ((∃ d, Asked s p d ∧ (s.view d).summaryReturns = false ∧
          transact raw hint s = .fault (.summaryNeverReturns d)) ∨
        ∃ k d, Resolves s p hint k ∧ s.readReg k = some d ∧ s.nextHandle = .never ∧
          transact raw hint s = .fault (.handleNeverReturns d)) := by
  unfold TransactionReturns at h
  push Not at h
  obtain ⟨p, t, hf, hstuck⟩ := h
  refine ⟨p, t, hf, ?_⟩
  by_cases ha : AskedReturn s p
  · obtain ⟨k, d, hk, hr, hnone⟩ := hstuck ha
    have hnever : s.nextHandle = .never := by
      cases hn : s.nextHandle with
      | never => rfl
      | returns r => exact absurd hn (hnone r)
    exact .inr ⟨k, d, hk, hr, hnever, by rw [transact_of_device hf ha hk hr, transactWith, hnever]⟩
  · rcases transact_cases raw hint s with ⟨-, hn⟩ | ⟨q, u, hq, hcases⟩
    · exact absurd ⟨p, t, hf⟩ hn
    obtain ⟨rfl, -⟩ := hf.unique hq
    rcases hcases with ⟨d, he, hd, hv⟩ | ⟨hret, -⟩
    · exact .inl ⟨d, hd, hv, he⟩
    · exact absurd hret ha

end Sys2Proof.DeviceCalls

open Sys2Proof Sys2Proof.Machine Sys2Proof.DeviceCalls

/-- Settles O46: SCAN and the transactions alone make calls that may not return, and each of them stops in the first
such call. -/
theorem operationsCompleteUnlessADeviceHangs : Obligations.OperationsCompleteUnlessADeviceHangs := by
  refine ⟨fun i s => exec_of_calls_return, fun i s hscan hbus => exec_of_no_call hscan hbus s, fun i s h => ?_⟩
  by_cases hi : i = .scan
  · subst hi
    rcases scan_cases s with ⟨hret, -⟩ | ⟨k, d, hk, hv, he⟩
    · exact absurd (callsReturn_scan hret) h
    · exact .inl ⟨d, .inl ⟨rfl, k, hk⟩, hv, he⟩
  cases hbus : i.busFrame with
  | none => exact absurd (callsReturn_of_no_call hi hbus s) h
  | some frame =>
    obtain ⟨raw, hint⟩ := frame
    rw [exec_busFrame hbus]
    obtain ⟨p, t, hf, ⟨d, hd, hv, he⟩ | ⟨k, d, hk, hr, hn, he⟩⟩ :=
      transact_stuck fun hret => h (callsReturn_of_busFrame hbus hret)
    · exact .inl ⟨d, .inr ⟨raw, hint, p, t, rfl, hf, hd⟩, hv, he⟩
    · exact .inr ⟨raw, hint, p, t, k, d, rfl, hf, hk, hr, hn, he⟩

end

section
/-! PROOFS. Who reads the scan cache, and what BUILD's answer turns on (R25, R80 to R82). -/

namespace Sys2Proof.CacheReaders

open Sys2Proof Sys2Proof.Machine Sys2Proof.BuilderAnswers Sys2Proof.Completion

/-! ### BUILD -/

/-- BUILD in range answers by CFG and the parameters, and in long mode by the cache (R80 to R82). -/
theorem buildInRange_congr {s u : State} (hcfg : u.cfg = s.cfg) (hp : u.params = s.params)
    (hcache : cfgFmt s.cfg = 0#1 ∨ u.scanCache = s.scanCache) (a : Int) (cmd : Byte) (data : Bytes) :
    ∃ st res, buildInRange a cmd data s = .next (s.finish [] st res) ∧
      buildInRange a cmd data u = .next (u.finish [] st res) := by
  have hshort : buildShort u a cmd data = buildShort s a cmd data := by rw [buildShort, buildShort, hcfg]
  by_cases hf : cfgFmt s.cfg = 0#1
  · exact ⟨_, _, buildInRange_short hf a cmd data, hshort ▸ buildInRange_short (hcfg ▸ hf) a cmd data⟩
  have hone : cfgFmt s.cfg = 1#1 := (BitVec.eq_zero_or_eq_one _).resolve_left hf
  have hone' : cfgFmt u.cfg = 1#1 := by rw [hcfg, hone]
  have hfind : u.cachedSummary (keyOf a) = s.cachedSummary (keyOf a) := by
    rw [State.cachedSummary, State.cachedSummary, hcache.resolve_left hf]
  cases he : s.cachedSummary (keyOf a) with
  | some e =>
    have hlong : buildLong u e cmd data = buildLong s e cmd data := by rw [buildLong, buildLong, hcfg]
    exact ⟨_, _, buildInRange_long hone he cmd data, hlong ▸ buildInRange_long hone' (hfind.trans he) cmd data⟩
  | none =>
    rw [buildInRange_unscanned hone he, buildInRange_unscanned hone' (hfind.trans he), hp, hshort]
    cases s.params.buildFallbackShort <;> exact ⟨_, _, rfl, rfl⟩

/-- BUILD answers by CFG and the parameters, and in long mode by the cache. -/
theorem exec_build_congr {s u : State} (hcfg : u.cfg = s.cfg) (hp : u.params = s.params)
    (hcache : cfgFmt s.cfg = 0#1 ∨ u.scanCache = s.scanCache) (a c : Int) (data : Bytes) :
    ∃ st res, exec (.build a c data) s = .next (s.finish [] st res) ∧
      exec (.build a c data) u = .next (u.finish [] st res) := by
  simp only [exec, execBuild]
  split
  · exact buildInRange_congr hcfg hp hcache a _ data
  · exact ⟨_, _, rfl, rfl⟩

/-! ### The other operations do not see the cache -/

theorem afterHandle_writeScanCache (s : State) (l : List Summary) (d : DevId) (v : DeviceView) :
    (s.writeScanCache l).afterHandle d v = (s.afterHandle d v).writeScanCache l := by
  rw [State.afterHandle, State.afterHandle, Transactions.dropHandleResult_eq, Transactions.dropHandleResult_eq]
  rfl

theorem deliver_writeScanCache {key : Option Key} {p : ParsedFrame} {s t : State} (h : deliver key p s = .next t)
    (l : List Summary) : deliver key p (s.writeScanCache l) = .next (t.writeScanCache l) := by
  have hnext : (s.writeScanCache l).nextHandle = s.nextHandle := rfl
  cases key with
  | none =>
    cases h
    rfl
  | some k =>
    simp only [deliver, State.writeScanCache_readReg] at h ⊢
    cases hr : s.readReg k with
    | none =>
      simp only [hr] at h
      cases h
      rfl
    | some d =>
      simp only [hr, transactWith] at h
      simp only [transactWith, hnext, afterHandle_writeScanCache]
      cases hn : s.nextHandle with
      | never => simp only [hn, reduceCtorEq] at h
      | returns g =>
        simp only [hn] at h
        cases hq : reframe p.preambles g.reply <;> simp only [hq] at h ⊢ <;> cases h <;> rfl

theorem transact_writeScanCache {raw : Bytes} {hint : Option Int} {s t : State} (h : transact raw hint s = .next t)
    (l : List Summary) : transact raw hint (s.writeScanCache l) = .next (t.writeScanCache l) := by
  unfold transact at h ⊢
  cases hp : parseFrame raw with
  | error why =>
    rw [hp] at h
    cases h
    rfl
  | ok p =>
    have hhung : (s.writeScanCache l).hungSummary ((s.writeScanCache l).askedDevices p) =
      s.hungSummary (s.askedDevices p) := rfl
    simp only [hp, route] at h
    simp only [route, hhung]
    cases hs : s.hungSummary (s.askedDevices p) with
    | some d => simp only [hs, reduceCtorEq] at h
    | none =>
      simp only [hs] at h
      exact deliver_writeScanCache h l

/-- Only BUILD in long mode reads the cache; SCAN replaces it. -/
theorem exec_writeScanCache {i : Instr} {s t : State} (h : exec i s = .next t) (hscan : i ≠ .scan)
    (hbuild : (∀ a c d, i ≠ .build a c d) ∨ cfgFmt s.cfg = 0#1) (l : List Summary) :
    exec i (s.writeScanCache l) = .next (t.writeScanCache l) := by
  cases i with
  | csum | preamble | saddr | laddr | cfgw | cfgr | register | reserved0 | reservedF =>
    cases h
    rfl
  | encode p st a c d =>
    simp only [exec, execEncode] at h ⊢
    cases he : encodeChecked p st a c d <;> simp only [he] at h <;> cases h <;> rfl
  | decode raw =>
    simp only [exec, execDecode] at h ⊢
    cases hp : parseFrame raw <;> simp only [hp] at h <;> cases h <;> rfl
  | decodeRsp raw =>
    simp only [exec, execDecodeRsp] at h ⊢
    cases hp : parseFrame raw <;> simp only [hp] at h <;> cases h <;> rfl
  | build a c data =>
    have hfmt : cfgFmt s.cfg = 0#1 := hbuild.resolve_left fun hne => hne a c data rfl
    obtain ⟨st, res, hs, hu⟩ := exec_build_congr (s := s) (u := s.writeScanCache l) rfl rfl (.inl hfmt) a c data
    cases h.symm.trans hs
    exact hu
  | move o n =>
    simp only [exec, execMove, State.writeScanCache_readReg] at h ⊢
    cases hr : s.readReg (keyOf o) <;> simp only [hr] at h <;> cases h <;> rfl
  | scan => exact absurd rfl hscan
  | transact | frameShortReq | frameShortRsp | frameLongReq | frameLongRsp =>
    rw [exec_busFrame rfl] at h ⊢
    exact transact_writeScanCache h l

end Sys2Proof.CacheReaders

open Sys2Proof Sys2Proof.Machine Sys2Proof.Completion Sys2Proof.CacheReaders

/-- Settles O48: CFGW and SCAN are the only writers among the ways to complete, and another cache in place of the one
that stands changes no other answer. -/
theorem configAndCacheWriters : Obligations.ConfigAndCacheWriters := by
  refine ⟨fun i s t h => ?writers, fun i s t l h hscan hbuild => exec_writeScanCache h hscan hbuild l, fun s l => rfl⟩
  case writers =>
    obtain ⟨hcfg, hcache, hlock⟩ := exec_blockState h
    refine ⟨fun hne => hcfg.resolve_right ?_, fun hne => hcache.resolve_right fun hi => hne hi.1, hlock⟩
    rintro ⟨fmt, n, hi, -⟩
    exact hne fmt n hi

/-- Settles O55: none of these operations writes what BUILD reads. -/
theorem buildUsesTheCacheAsItStands : Obligations.BuildUsesTheCacheAsItStands := by
  intro i s t u v address command data hi h hu hv
  have hkind : (∀ fmt n, i ≠ .cfgw fmt n) ∧ i ≠ .scan := by
    rcases hi with ⟨a, d, rfl⟩ | ⟨o, n, rfl⟩ | hbus
    · exact ⟨fun _ _ => by simp, by simp⟩
    · exact ⟨fun _ _ => by simp, by simp⟩
    · exact ⟨fun _ _ hc => hbus (by rw [hc]; rfl), fun hc => hbus (by rw [hc]; rfl)⟩
  obtain ⟨hcfg, hcache, -⟩ := configAndCacheWriters.1 i s t h
  obtain ⟨st, res, hs, ht⟩ := exec_build_congr (hcfg hkind.1) (exec_keeps_params_inputs h).1 (.inr (hcache hkind.2))
    address command data
  cases hu.symm.trans hs
  cases hv.symm.trans ht
  rfl

end

section
/-! PROOFS. What a failure leaves behind, and which operations raise which status (R105, R106). -/

namespace Sys2Proof.Failures

open Sys2Proof Sys2Proof.Machine Sys2Proof.Completion

/-- A transaction's response is that of its status, and unless it called a device every device shows what it
showed (R94). -/
theorem transacted_response {s t : State} {raw : Bytes} {hint : Option Int} (h : Transacted s raw hint t) :
    ∃ st res, t.response = some ⟨st, res⟩ ∧ st ∈ [.ok, .emptyGarbled, .emptyNoRoute, .emptyMiss, .emptyDevice] ∧
      (st ≠ .ok → res = .bytes [] ∧ (st ≠ .emptyDevice → t.devices = s.devices)) := by
  cases h with
  | garbled | noRoute | miss => exact ⟨_, _, rfl, by decide, fun _ => ⟨rfl, fun _ => rfl⟩⟩
  | badReply => exact ⟨_, _, rfl, by decide, fun _ => ⟨rfl, fun hne => absurd rfl hne⟩⟩
  | reply => exact ⟨_, _, rfl, by decide, fun hne => absurd rfl hne⟩

/-- A failure of an operation that is no transaction is one of the quiet answers. -/
theorem quiet_of_failure {i : Instr} {s t : State} {r : Response} (h : exec i s = .next t)
    (hr : t.response = some r) (hbus : i.busFrame = none) (hne : r.status ≠ .ok) :
    QuietAnswer s i r.status r.result ∧ t = s.finish [] r.status r.result := by
  cases exec_completes h with
  | quiet hans =>
    cases hr
    exact ⟨hans, rfl⟩
  | cfgw | register | move | scan =>
    cases hr
    exact absurd rfl hne
  | bus hb => cases hbus.symm.trans hb

theorem quiet_result {s : State} {i : Instr} {st : Status} {res : Result} (h : QuietAnswer s i st res)
    (hne : st ≠ .ok) : res = .none := by
  cases h with
  | ok => exact absurd rfl hne
  | _ => rfl

/-- The EMPTY statuses are no quiet answers. -/
theorem quiet_status {s : State} {i : Instr} {st : Status} {res : Result} (h : QuietAnswer s i st res) :
    st ∉ [.emptyGarbled, .emptyNoRoute, .emptyMiss, .emptyDevice] := by
  cases h <;> decide

/-- What a transaction that ends with a failure status has done. -/
theorem transaction_of_failure {i : Instr} {s t : State} {r : Response} {raw : Bytes} {hint : Option Int}
    (h : exec i s = .next t) (hr : t.response = some r) (hbus : i.busFrame = some (raw, hint)) (hne : r.status ≠ .ok) :
    r.result = .bytes [] ∧ sameBlockState s t ∧ (r.status ≠ .emptyDevice → t.devices = s.devices) := by
  rw [exec_busFrame hbus] at h
  obtain ⟨st, res, hr', -, hfail⟩ := transacted_response (transacted_of_next h)
  cases hr.symm.trans hr'
  obtain ⟨hres, hdev⟩ := hfail hne
  exact ⟨hres, (transact_keeps h).2.1, hdev⟩

/-! ### Who raises which status -/

/-- The statuses of a transaction. -/
theorem transaction_status {i : Instr} {s t : State} {r : Response} {raw : Bytes} {hint : Option Int}
    (h : exec i s = .next t) (hr : t.response = some r) (hbus : i.busFrame = some (raw, hint)) :
    r.status ∈ [.ok, .emptyGarbled, .emptyNoRoute, .emptyMiss, .emptyDevice] := by
  rw [exec_busFrame hbus] at h
  obtain ⟨st, res, hr', hst, -⟩ := transacted_response (transacted_of_next h)
  cases hr.symm.trans hr'
  exact hst

/-- A failure status other than the EMPTY statuses is a quiet answer. -/
theorem quiet_of_status {i : Instr} {s t : State} {r : Response} {st : Status} (h : exec i s = .next t)
    (hr : t.response = some r) (hst : r.status = st)
    (hno : st ∉ [.ok, .emptyGarbled, .emptyNoRoute, .emptyMiss, .emptyDevice]) : QuietAnswer s i st r.result := by
  subst hst
  cases hbus : i.busFrame with
  | some frame => exact absurd (transaction_status h hr hbus) hno
  | none => exact (quiet_of_failure h hr hbus fun hok => hno (by simp [hok])).1

theorem quiet_absent {s : State} {i : Instr} {res : Result} (h : QuietAnswer s i .absent res) :
    ∃ raw, i = .decode raw ∨ i = .decodeRsp raw := by
  cases h with
  | decodeAbsent raw => exact ⟨raw, .inl rfl⟩
  | decodeRspAbsent raw => exact ⟨raw, .inr rfl⟩

theorem quiet_resolveErr {s : State} {i : Instr} {res : Result} (h : QuietAnswer s i .resolveErr res) :
    (∃ a c d, i = .build a c d) ∧ s.params.buildFallbackShort = false ∧ cfgFmt s.cfg = 1#1 := by
  cases h with
  | resolveErr a c d hfmt hfallback => exact ⟨⟨a, c, d, rfl⟩, hfallback, hfmt⟩

theorem quiet_argRange {s : State} {i : Instr} {res : Result} (h : QuietAnswer s i .argRange res) :
    (∃ p st a c d, i = .encode p st a c d) ∨ ∃ a c d, i = .build a c d := by
  cases h with
  | encodeRange p st a c d => exact .inl ⟨p, st, a, c, d, rfl⟩
  | buildRange a c d => exact .inr ⟨a, c, d, rfl⟩

theorem quiet_moveEmpty {s : State} {i : Instr} {res : Result} (h : QuietAnswer s i .moveEmpty res) :
    ∃ o n, i = .move o n := by
  cases h with
  | moveEmpty o n => exact ⟨o, n, rfl⟩

theorem quiet_illegalOp {s : State} {i : Instr} {res : Result} (h : QuietAnswer s i .illegalOp res) :
    i = .reserved0 ∨ i = .reservedF := by
  cases h with
  | reserved0 => exact .inl rfl
  | reservedF => exact .inr rfl

/-- A reserved op ends with ILLEGAL_OP (R109). -/
theorem illegalOp_of_reserved {i : Instr} {s t : State} {r : Response} (h : exec i s = .next t)
    (hr : t.response = some r) (hi : i = .reserved0 ∨ i = .reservedF) : r.status = .illegalOp := by
  rcases hi with rfl | rfl <;> cases h <;> cases hr <;> rfl

/-! ### The codes (R105) -/

theorem code_lt_ten (a : Status) : a.code.toNat < 10 := by
  cases a <;> decide

/-- The code is the status's number. -/
theorem ofNat_code (a : Status) : Status.ofNat a.code.toNat = a := by
  cases a <;> rfl

theorem code_injective {a b : Status} (h : a.code = b.code) : a = b := by
  rw [← ofNat_code a, h, ofNat_code b]

/-- The EMPTY statuses are raised by transactions alone (R94). -/
theorem busFrame_of_empty {i : Instr} {s t : State} {r : Response} (h : exec i s = .next t) (hr : t.response = some r)
    (hst : r.status ∈ [.emptyGarbled, .emptyNoRoute, .emptyMiss, .emptyDevice]) : i.busFrame ≠ none := by
  intro hbus
  have hne : r.status ≠ .ok := fun hok => by simp [hok] at hst
  exact quiet_status (quiet_of_failure h hr hbus hne).1 hst

end Sys2Proof.Failures

open Sys2Proof Sys2Proof.Machine Sys2Proof.Completion Sys2Proof.Failures

/-- Settles O49: a failure is a quiet answer, or a transaction, which leaves the block state. -/
theorem failedOperationsWriteNothing : Obligations.FailedOperationsWriteNothing := by
  intro i s t r h hr hne
  cases hbus : i.busFrame with
  | none =>
    obtain ⟨-, rfl⟩ := quiet_of_failure h hr hbus hne
    exact ⟨⟨rfl, rfl, rfl, rfl⟩, fun _ => rfl⟩
  | some frame => exact (transaction_of_failure h hr hbus hne).2

/-- Settles O50: a quiet answer has no result, and a failed transaction the empty bytes. -/
theorem failedOperationsReturnNoResult : Obligations.FailedOperationsReturnNoResult := by
  intro i s t r h hr hne
  cases hbus : i.busFrame with
  | none => exact ⟨fun _ => quiet_result (quiet_of_failure h hr hbus hne).1 hne, fun hc => absurd rfl hc⟩
  | some frame => exact ⟨fun hc => absurd hc (by simp), fun _ => (transaction_of_failure h hr hbus hne).1⟩

/-- Settles O51: each failure status but the EMPTY ones stands in the quiet answers of its own operations. -/
theorem statusesOfTheOperations : Obligations.StatusesOfTheOperations := by
  refine ⟨fun i s t r h hr => ⟨fun hst => ?_, fun hst => ?_, fun hst => ?_, fun hst => ?_, ⟨fun hst => ?_, ?_⟩,
    fun hst => ?_⟩, code_lt_ten, fun a b => code_injective, rfl, rfl, rfl, rfl, rfl, rfl, rfl, rfl, rfl, rfl⟩
  · exact quiet_absent (quiet_of_status h hr hst (by decide))
  · exact quiet_resolveErr (quiet_of_status h hr hst (by decide))
  · exact quiet_argRange (quiet_of_status h hr hst (by decide))
  · exact quiet_moveEmpty (quiet_of_status h hr hst (by decide))
  · exact quiet_illegalOp (quiet_of_status h hr hst (by decide))
  · exact illegalOp_of_reserved h hr
  · exact busFrame_of_empty h hr (by simpa using hst)

end

section
/-! PROOFS. What an operation does at the device port: the calls and the wait it records, and the devices it changes
(R95 to R97, R131). -/

namespace Sys2Proof.PortActivity

open Sys2Proof Sys2Proof.Machine Sys2Proof.Completion Sys2Proof.Transactions

/-! ### The record of a transaction -/

/-- A transaction records `summary` calls under DIRECTORY alone, then one `handle` call at most, then the wait; it
waits exactly if its bytes are a frame (R131). -/
theorem transacted_activity {s t : State} {raw : Bytes} {hint : Option Int} (h : Transacted s raw hint t) :
    ∃ calls handles waits, t.activity = calls ++ handles ++ waits ∧
      (∀ a ∈ calls, (∃ d, a = .summary d) ∧ s.params.longRoute = .directory) ∧
      (handles = [] ∨ ∃ d q, handles = [.handle d q]) ∧ (handles ≠ [] → waits = [.wait]) ∧
      (waits = [] ∨ waits = [.wait]) ∧ (waits = [.wait] ↔ ∃ p t', FrameAt raw p t') := by
  cases h with
  | garbled hn => exact ⟨[], [], [], rfl, by simp, .inl rfl, fun hc => absurd rfl hc, .inl rfl, by simp [hn]⟩
  | noRoute hf | miss hf =>
    exact ⟨_, [], [.wait], by simp, fun _ => mem_resolveCalls hf.width, .inl rfl, fun _ => rfl, .inr rfl,
      fun _ => ⟨_, _, hf⟩, fun _ => rfl⟩
  | @badReply p _ _ d _ hf | @reply p _ _ _ _ d _ hf =>
    exact ⟨s.resolveCalls p, [.handle d p.toRequest], [.wait], by simp, fun _ => mem_resolveCalls hf.width,
      .inr ⟨_, _, rfl⟩, fun _ => rfl, .inr rfl, fun _ => ⟨_, _, hf⟩, fun _ => rfl⟩

/-- An operation that is neither SCAN nor a transaction does not wait. -/
theorem no_wait_iff {i : Instr} (hscan : i ≠ .scan) (hbus : i.busFrame = none) :
    ([] : List Activity) = [.wait] ↔
      i = .scan ∨ ∃ raw hint p t, i.busFrame = some (raw, hint) ∧ FrameAt raw p t := by
  simp [hscan, hbus]

/-- An operation on the bus waits as its frame's transaction does. -/
theorem bus_wait_iff {i : Instr} {raw : Bytes} {hint : Option Int} (hbus : i.busFrame = some (raw, hint)) :
    (∃ p t, FrameAt raw p t) ↔
      i = .scan ∨ ∃ raw hint p t, i.busFrame = some (raw, hint) ∧ FrameAt raw p t := by
  constructor
  · rintro ⟨p, t, hf⟩
    exact .inr ⟨raw, hint, p, t, hbus, hf⟩
  · rintro (hi | ⟨raw', hint', p, t, hbus', hf⟩)
    · subst hi
      cases hbus
    · cases hbus.symm.trans hbus'
      exact ⟨p, t, hf⟩

/-! ### The devices an operation changes -/

/-- A transaction changes the view of the device that it calls, and of no other (R95, R115). -/
theorem transacted_view {s t : State} {raw : Bytes} {hint : Option Int} (h : Transacted s raw hint t) {d : DevId}
    (hne : t.view d ≠ s.view d) :
    (∃ q, .handle d q ∈ t.activity) ∧ ∃ g, s.nextHandle = .returns g ∧ t.view d = g.after := by
  cases h with
  | garbled | noRoute | miss => exact absurd rfl hne
  | @badReply p _ _ c g _ _ _ hh | @reply p _ _ _ _ c g _ _ _ hh =>
    obtain rfl : c = d := by
      by_contra hc
      exact hne (State.afterHandle_view_other s hc _)
    exact ⟨⟨p.toRequest, by simp⟩, g, hh, State.afterHandle_view_same s c _⟩

end Sys2Proof.PortActivity

open Sys2Proof Sys2Proof.Machine Sys2Proof.Completion Sys2Proof.PortActivity

/-- Settles O52: only MOVE, SCAN and the transactions record anything. -/
theorem deviceCallsAndWaits : Obligations.DeviceCallsAndWaits := by
  intro i s t h
  cases exec_completes h with
  | quiet _ hscan hbus =>
    exact ⟨[], [], [], rfl, by simp, .inl rfl, fun hc => absurd rfl hc, .inl rfl, no_wait_iff hscan hbus⟩
  | cfgw | register =>
    exact ⟨[], [], [], rfl, by simp, .inl rfl, fun hc => absurd rfl hc, .inl rfl, no_wait_iff (by simp) rfl⟩
  | @move o n d hr =>
    refine ⟨[.setPollingAddress d (keyOf n)], [], [], rfl, fun a ha => .inr ?_, .inl rfl, fun hc => absurd rfl hc,
      .inl rfl, no_wait_iff (by simp) rfl⟩
    exact ⟨o, n, keyOf o, keyOf n, d, rfl, keyOf_val o, keyOf_val n, hr, List.mem_singleton.mp ha⟩
  | scan =>
    refine ⟨s.occupied.map fun e => .summary e.2, [], [.wait], by simp, fun a ha => .inl ?_, .inl rfl,
      fun hc => absurd rfl hc, .inr rfl, fun _ => .inl rfl, fun _ => rfl⟩
    obtain ⟨e, -, rfl⟩ := List.mem_map.mp ha
    exact ⟨⟨e.2, rfl⟩, .inl rfl⟩
  | bus hbus ht =>
    obtain ⟨calls, handles, waits, hact, hcalls, hh, hhw, hw, hiff⟩ := transacted_activity ht
    have hb : i.busFrame ≠ none := by simp [hbus]
    refine ⟨calls, handles, waits, hact, fun a ha => ?_, hh, fun hc => ⟨hb, hhw hc⟩, hw, hiff.trans (bus_wait_iff hbus)⟩
    obtain ⟨hsum, hdir⟩ := hcalls a ha
    exact .inl ⟨hsum, .inr ⟨hb, hdir⟩⟩

/-- Settles O53: MOVE and the transactions alone write the table of devices. -/
theorem operationsChangeOnlyCalledDevices : Obligations.OperationsChangeOnlyCalledDevices := by
  intro i s t d h hne
  cases exec_completes h with
  | quiet | cfgw | register | scan => exact absurd rfl hne
  | @move o n c hr =>
    obtain rfl : c = d := by
      by_contra hc
      exact hne (State.setPollingAddress_view_other _ hc _)
    exact .inl ⟨o, n, keyOf o, keyOf n, rfl, keyOf_val o, keyOf_val n, hr, rfl,
      State.setPollingAddress_view_same _ c _⟩
  | bus hbus ht => exact .inr ⟨by simp [hbus], transacted_view ht hne⟩

end

section
/-! PROOFS. Integer addresses modulo 16 (R9), the layout of unique ids (R33), and the length of frames (R54). -/

namespace Sys2Proof.Layouts

open Sys2Proof Sys2Proof.Machine Sys2Proof.Transactions

/-! ### Addresses modulo 16 -/

theorem keyOf_add_mul (a m : Int) : keyOf (a + 16 * m) = keyOf a := by
  rw [keyOf_eq_iff, keyOf_val, Int.add_mul_emod_self_left]

theorem shortAddress_add_mul (a m : Int) : shortAddress (a + 16 * m) = shortAddress a := by
  rw [shortAddress, keyOf_add_mul, shortAddress]

theorem buildInRange_add_mul (a m : Int) (cmd : Byte) (data : Bytes) (s : State) :
    buildInRange (a + 16 * m) cmd data s = buildInRange a cmd data s := by
  simp only [buildInRange, buildShort, keyOf_add_mul, shortAddress_add_mul]

/-- A hint resolves by its key (R87). -/
theorem resolveKey_add_mul (a m : Int) (p : ParsedFrame) (s : State) :
    s.resolveKey p (some (a + 16 * m)) = s.resolveKey p (some a) := by
  simp only [State.resolveKey, Option.map_some, keyOf_add_mul]

/-! ### Unique ids -/

/-- The three bytes of a serial number, most significant first, are the number (R33). -/
theorem serial_toNat (n : BitVec 24) : (n.extractLsb' 16 8).toNat * 65536 + (n.extractLsb' 8 8).toNat * 256 +
    (n.extractLsb' 0 8).toNat = n.toNat := by
  simp only [BitVec.extractLsb'_toNat, Nat.shiftRight_eq_div_pow]
  omega

theorem serialOf_uniqueIdOf (m t : Byte) (n : BitVec 24) : serialOf (uniqueIdOf m t n) = n := by
  show BitVec.ofNat 24 ((n.extractLsb' 16 8).toNat * 65536 + (n.extractLsb' 8 8).toNat * 256 +
    (n.extractLsb' 0 8).toNat) = n
  rw [serial_toNat, BitVec.ofNat_toNat, BitVec.setWidth_eq]

/-- A byte is read back from the number it stands in. -/
theorem serialOf_bytes (u : UniqueId) : (serialOf u).extractLsb' 16 8 = u[2] ∧ (serialOf u).extractLsb' 8 8 = u[3] ∧
    (serialOf u).extractLsb' 0 8 = u[4] := by
  have h2 := u[2].isLt
  have h3 := u[3].isLt
  have h4 := u[4].isLt
  refine ⟨BitVec.eq_of_toNat_eq ?_, BitVec.eq_of_toNat_eq ?_, BitVec.eq_of_toNat_eq ?_⟩ <;>
    simp only [serialOf, BitVec.extractLsb'_toNat, BitVec.toNat_ofNat, Nat.shiftRight_eq_div_pow] <;> omega

theorem uniqueIdOf_fields (u : UniqueId) : uniqueIdOf (manufacturerOf u) (deviceTypeOf u) (serialOf u) = u := by
  obtain ⟨h2, h3, h4⟩ := serialOf_bytes u
  refine Vector.ext fun j hj => ?_
  match j, hj with
  | 0, _ => rfl
  | 1, _ => rfl
  | 2, _ => exact h2
  | 3, _ => exact h3
  | 4, _ => exact h4

/-! ### Frames -/

theorem length_of_frameAt {raw t : Bytes} {f : ParsedFrame} (h : FrameAt raw f t) :
    raw.length = frameLength f + t.length := by
  rw [h.bytes, frameLength]
  simp only [List.length_append, List.length_replicate, List.length_cons, List.length_nil]
  omega

end Sys2Proof.Layouts

open Sys2Proof Sys2Proof.Machine Sys2Proof.Transactions Sys2Proof.Layouts

/-- Settles O54: every integer address enters its operation through its key. -/
theorem addressesCountModuloSixteen : Obligations.AddressesCountModuloSixteen := by
  intro a b m command data raw d s
  refine ⟨?_, ?_, ?_, ?_, ?_, transact_congr_hint fun p _ _ => resolveKey_add_mul a m p s⟩
  · simp only [exec, execSaddr, shortAddress_add_mul]
  · simp only [exec, execBuild, buildInRange_add_mul]
  · simp only [exec, execRegister, keyOf_add_mul]
  · simp only [exec, execMove, keyOf_add_mul]
  · simp only [exec, execMove, keyOf_add_mul]

/-- Settles O56: packing three bytes into a number and taking them out again undo each other. -/
theorem uniqueIdLayout : Obligations.UniqueIdLayout :=
  ⟨fun m t n => ⟨rfl, rfl, serialOf_uniqueIdOf m t n⟩, uniqueIdOf_fields, by decide⟩

/-- Settles O57: the address width is the one that the delimiter selects. -/
theorem frameLengths : Obligations.FrameLengths := by
  intro raw f t h
  refine ⟨length_of_frameAt h, fun hst => ?_, fun hst => ?_⟩
  all_goals
    have hlen := h.dataLength
    have hwidth := addressWidth_eq_some.mpr h.width
    rw [frameLength]
    rcases hst with hst | hst
    all_goals
      rw [hst] at hwidth
      have := Option.some.inj hwidth
      omega

end
